-- ==== Sys2Proof/Word.lean ====
section
/-! DEFINITION. The word types of `bitfield_mask_extract`. Bit 0 is the least significant bit everywhere (R7). -/

namespace Sys2Proof

/-- A 32-bit word: the command word CMD, the operand words A and B, STATUS (R5, R31). -/
abbrev Word := BitVec 32

/-- The 64-bit word of RESULT (R6, R19). -/
abbrev ResultWord := BitVec 64

end Sys2Proof
end

