-- ==== Sys2Proof/Syntax.lean ====
section
/-! DEFINITION. What the host issues and what it means as syntax: one constructor per row of spec/opcode_table.json. -/

namespace Sys2Proof

/-- What `ISSUE(CMD, A, B)` presents: one command word with its two operand words (R28, R39). -/
structure Issue where
  cmd : Word
  a   : Word
  b   : Word
deriving DecidableEq, Repr

/-- A command: "one command word plus its operands A and B" (R12). The bit positions and the width are numbers
(R41); the operand words are words. Every command carries both operand words, those it ignores too (R46).
Log 1 and log 8 say why the operands stand here and why the numbers are unbounded before `Instr.wellFormed`. -/
inductive Instr where
  /-- BF.MASK (R55): A and B are ignored. -/
  | bfMask (fromBit toBit : Nat) (a b : Word)
  /-- BF.EXT (R56): A is the word, B is ignored. -/
  | bfExt (fromBit toBit : Nat) (a b : Word)
  /-- BF.EXTS (R63): A is the word, B is ignored. -/
  | bfExts (fromBit toBit : Nat) (a b : Word)
  /-- BF.INS (R65): A is the word, B is the value. -/
  | bfIns (fromBit toBit : Nat) (a b : Word)
  /-- SEXT (R62): A is the field, B is ignored. -/
  | sext (width : Nat) (a b : Word)
deriving DecidableEq, Repr

end Sys2Proof
end

