-- ==== Sys2Proof/Decode.lean ====
section
/-! DEFINITION. The decoder (R39 to R47), total on any three words, rejecting by name, and after it the encoder (R48). -/

namespace Sys2Proof

/-! ### The fields of a command word (R40) -/

/-- OP, bits [3:0]. -/
def opField (w : Word) : BitVec 4 := w.extractLsb' 0 4

/-- FROM, bits [9:4]. -/
def fromField (w : Word) : BitVec 6 := w.extractLsb' 4 6

/-- TO, bits [15:10]. -/
def toField (w : Word) : BitVec 6 := w.extractLsb' 10 6

/-- WIDTH, bits [21:16]. -/
def widthField (w : Word) : BitVec 6 := w.extractLsb' 16 6

/-- RSV, bits [31:22]. -/
def rsvField (w : Word) : BitVec 10 := w.extractLsb' 22 10

/-! ### Decoding (R45) -/

/-- Why a command word is no command. Each is an IllegalCommand (R43, R44, R45). -/
inductive Illegal where
  /-- OP is 0x0 or 0x6 to 0xF (R44). -/
  | opcode
  /-- RSV is not zero (R43). -/
  | reserved
  /-- WIDTH is not zero in a word with OP 0x1 to 0x4 (R43). -/
  | unusedWidth
  /-- FROM or TO is not zero in a word with OP 0x5 (R43). -/
  | unusedRange
deriving DecidableEq, Repr

/-- What decoding gives: a command, or the name of what is wrong with the word. -/
inductive Decoded where
  | command (i : Instr)
  | illegal (why : Illegal)
deriving DecidableEq, Repr

/-- The command of a word that uses FROM and TO: WIDTH must be zero (R43), the fields are zero-extended (R41). -/
def decodeRanged (ctor : Nat → Nat → Word → Word → Instr) (c : Issue) : Decoded :=
  if widthField c.cmd ≠ 0 then .illegal .unusedWidth
  else .command (ctor (fromField c.cmd).toNat (toField c.cmd).toNat c.a c.b)

/-- The command of a word that uses WIDTH: FROM and TO must be zero (R43). -/
def decodeSext (c : Issue) : Decoded :=
  if fromField c.cmd ≠ 0 ∨ toField c.cmd ≠ 0 then .illegal .unusedRange
  else .command (.sext (widthField c.cmd).toNat c.a c.b)

/-- `decode(CMD)` (R45) with the operand words carried along (R46: they are data and never reject). -/
def decode (c : Issue) : Decoded :=
  if opField c.cmd = 0 ∨ 6 ≤ (opField c.cmd).toNat then .illegal .opcode
  else if rsvField c.cmd ≠ 0 then .illegal .reserved
  else match (opField c.cmd).toNat with
    | 1 => decodeRanged .bfMask c
    | 2 => decodeRanged .bfExt c
    | 3 => decodeRanged .bfExts c
    | 4 => decodeRanged .bfIns c
    | 5 => decodeSext c
    | _ => .illegal .opcode

/-- The decoded command, if there is one. -/
def Decoded.toOption : Decoded → Option Instr
  | .command i => some i
  | .illegal _ => none

/-! ### Encoding (R48) -/

/-- `enc(OP, FROM, TO, WIDTH) = OP | (FROM << 4) | (TO << 10) | (WIDTH << 16)` (R48). -/
def enc (op fromBit toBit width : Nat) : Nat :=
  op ||| (fromBit <<< 4) ||| (toBit <<< 10) ||| (width <<< 16)

/-- The command word of a well-formed command (R42, R48). -/
def encodeWord : Instr → Word
  | .bfMask f t _ _ => BitVec.ofNat 32 (enc 1 f t 0)
  | .bfExt f t _ _ => BitVec.ofNat 32 (enc 2 f t 0)
  | .bfExts f t _ _ => BitVec.ofNat 32 (enc 3 f t 0)
  | .bfIns f t _ _ => BitVec.ofNat 32 (enc 4 f t 0)
  | .sext w _ _ => BitVec.ofNat 32 (enc 5 0 0 w)

/-- The operand words a command carries. -/
def Instr.operands : Instr → Word × Word
  | .bfMask _ _ a b => (a, b)
  | .bfExt _ _ a b => (a, b)
  | .bfExts _ _ a b => (a, b)
  | .bfIns _ _ a b => (a, b)
  | .sext _ a b => (a, b)

/-- What the host issues to have a well-formed command performed. -/
def encode (i : Instr) : Issue := ⟨encodeWord i, i.operands.1, i.operands.2⟩

/-! ### The opcode table's numbering of bits -/

/-- The words an instruction of `nbits` bits `w` lays on the port: CMD from bit 0, then A, then B (log 11);
bits the table gives no row are zero. -/
def issueOfTableWord (nbits w : Nat) : Issue :=
  ⟨BitVec.ofNat 32 (w % 2 ^ nbits), BitVec.ofNat 32 (w % 2 ^ nbits / 2 ^ 32),
    BitVec.ofNat 32 (w % 2 ^ nbits / 2 ^ 64)⟩

/-- The command the decoder reads from a table word; nothing longer than CMD, A and B is one. -/
def decodeTableWord (nbits w : Nat) : Option Instr :=
  if w % 2 ^ nbits < 2 ^ 96 then (decode (issueOfTableWord nbits w)).toOption else none

end Sys2Proof
end

