-- ==== Sys2Proof/Machine/State.lean ====
section
/-! DEFINITION. The machine's state as plain data, and what a step may answer. -/

namespace Sys2Proof.Machine

/-- The four causes of a command's fault (R68). -/
inductive Cause where
  /-- The word fails decode (R45). -/
  | illegalCommand
  /-- `from_bit ≥ 32`, `to_bit < from_bit` or `to_bit > 32` (R53). -/
  | invalidRange
  /-- `width ≤ 1` (R59). -/
  | invalidWidth
  /-- `field ≥ 2^(width+1)` (R59). -/
  | fieldOutOfRange
deriving DecidableEq, Repr

/-- The two outcomes of the spec's `exec(CMD, A, B)`: `Ok(r)` with an exact integer, or `Fault(c)` (R9). A fault of
a command is no stop of the machine (R74). -/
inductive CommandOutcome where
  | ok (r : Int)
  | fault (c : Cause)
deriving DecidableEq, Repr

/-- Which of a coinciding ISSUE and reset comes first: "the platform decides" (R88). -/
inductive Order where
  | resetFirst
  | commandFirst
deriving DecidableEq, Repr

/-- What the host and the platform can do to the unit (R28, R86, R87, R88). -/
inductive HostOp where
  /-- `ISSUE(CMD, A, B)` (R28). -/
  | issue (c : Issue)
  /-- `READ_RESULT()` (R28). -/
  | readResult
  /-- `READ_STATUS()` (R28). -/
  | readStatus
  /-- Reset (R27, R87). -/
  | reset
  /-- An ISSUE that coincides with a reset, in the order the platform decides (R88). -/
  | issueWithReset (c : Issue) (first : Order)
  /-- A loss of power and the power-up after it. What the registers then hold is not specified (R86): the event
  carries it, so that it can be any value (log 5). -/
  | powerLoss (result : ResultWord) (status : Word)
deriving DecidableEq, Repr

/-- A value a read returned to the host (R28, R31). -/
inductive Delivered where
  | result (v : ResultWord)
  | status (v : Word)
deriving DecidableEq, Repr

/-- The unit has "exactly two architectural registers" (R18). The last two fields are the model's own: the host's
side of the port (log 2). -/
structure State where
  /-- RESULT[63:0] (R19). -/
  result    : ResultWord
  /-- STATUS[31:0]: FLT [0], CAUSE [3:1], STICKY [4], the rest hardwired 0 (R20). -/
  status    : Word
  /-- The operations the host and the platform have yet to perform, the first first (R34). -/
  pending   : List HostOp
  /-- The values the host's reads returned, the newest first. -/
  delivered : List Delivered
deriving DecidableEq, Repr

/-- The machine right after reset (R27): both registers 0. Nothing is pending and nothing has been read (log 2). -/
def State.reset : State := ⟨0, 0, [], []⟩

/-- Reasons for the machine to stop with a fault: none. "Every command completes" (R96) and "A fault does not stop
the unit" (R74), so no step raises one and the type has no constructor (log 7). Safe: nothing is hidden in a stop. -/
inductive Fault where
deriving DecidableEq, Repr

/-- Reasons to refuse an instruction. -/
inductive Refusal where
  /-- Raised by an arm of `exec` whose instruction has no meaning yet. No arm raises it in this model. Safe: a refused
  instruction proves nothing. -/
  | notModelled (mnemonic : String)
deriving DecidableEq, Repr

end Sys2Proof.Machine
end

