-- ==== Sys2Proof/Machine/Flags.lean ====
section
/-! DEFINITION. STATUS: its fields (R20), the cause codes (R68) and the one way a command writes it (R21 to R24). -/

namespace Sys2Proof.Machine

/-- STATUS.FLT, bit [0] (R20, R21). -/
def State.flt (s : State) : Bool := s.status.getLsbD 0

/-- STATUS.CAUSE, bits [3:1] (R20, R22). -/
def State.cause (s : State) : BitVec 3 := s.status.extractLsb' 1 3

/-- STATUS.STICKY, bit [4] (R20, R23). -/
def State.sticky (s : State) : Bool := s.status.getLsbD 4

/-- STATUS reserved, bits [31:5] (R20). -/
def State.reserved (s : State) : BitVec 27 := s.status.extractLsb' 5 27

/-- `code(c)` (R68). Code 0 means no fault; codes 5 to 7 are never produced. -/
def Cause.code : Cause → BitVec 3
  | .illegalCommand => 1
  | .invalidRange => 2
  | .invalidWidth => 3
  | .fieldOutOfRange => 4

/-- STATUS from its fields, the reserved bits 0 (R20). -/
def statusWord (flt : Bool) (cause : BitVec 3) (sticky : Bool) : Word :=
  0#27 ++ BitVec.ofBool sticky ++ cause ++ BitVec.ofBool flt

/-- STATUS after a command that ends in `Ok(r)`: FLT and CAUSE 0, STICKY as before (R24). -/
def statusAfterOk (old : Word) : Word := statusWord false 0 (old.getLsbD 4)

/-- STATUS after a command that ends in `Fault(c)`: FLT 1, CAUSE the code, STICKY 1 (R24). -/
def statusAfterFault (c : Cause) : Word := statusWord true c.code true

/-- What STATUS can hold: bits [31:5] are hardwired 0 (R20). -/
def hardwireStatus (w : Word) : Word := w &&& 0x1F#32

end Sys2Proof.Machine
end

