-- ==== Sys2Proof/Machine/Operands.lean ====
section
/-! DEFINITION. The operands as the rules compute with them, and the two result patterns. A value is a mathematical
integer until it is written (R8): `<<` on `Nat` is exact, `>>` is the floor of the quotient. -/

namespace Sys2Proof.Machine

/-- An operand word read "as an unsigned integer in `[0, 2^32 - 1]`" (R8, R41). -/
abbrev operandValue (w : Word) : Nat := w.toNat

/-- The field width `w = to_bit - from_bit + 1` (R12, R54). -/
def fieldWidth (fromBit toBit : Nat) : Nat := toBit - fromBit + 1

/-- `a mod 2^32` (R8, R10). -/
def mod32 (n : Nat) : Nat := n % 2 ^ 32

/-- `sext_64(v)`: the 64-bit two's-complement pattern of v, "that is `v mod 2^64`" (R8; log 6). -/
def sext64 (v : Int) : ResultWord := BitVec.ofInt 64 v

end Sys2Proof.Machine
end

