-- ==== Sys2Proof/Machine/Ops.lean ====
section
/-! DEFINITION. The named operations over the two registers and the host's side of the port. The unit has no memory
(R28). What other machines call taking an exception is here a command's completion with `Fault(c)`: it saves no pc
and goes nowhere (R73), and there is no return from it (R75). -/

namespace Sys2Proof.Machine

/-- Both registers written in one atomic update; STATUS keeps its hardwired bits (R20, R24). -/
def State.setRegs (s : State) (result : ResultWord) (status : Word) : State :=
  { s with result := result, status := hardwireStatus status }

/-- The update that completes a command (R24). `Fault(c)` is the one place where a fault is taken (R69, R71). -/
def State.complete (o : CommandOutcome) (s : State) : State :=
  match o with
  | .ok r => s.setRegs (sext64 r) (statusAfterOk s.status)
  | .fault c => s.setRegs 0 (statusAfterFault c)

/-- Reset sets RESULT and STATUS to 0 (R27, R87). The host's side of the port is not the unit's. -/
def State.applyReset (s : State) : State := s.setRegs 0 0

/-- What the host reads as RESULT (R28). -/
def State.readResult (s : State) : ResultWord := s.result

/-- What the host reads as STATUS: the reserved bits "always read 0" (R20, R28). -/
def State.readStatus (s : State) : Word := hardwireStatus s.status

/-- A read returns a value to the host and has no side effect on the unit (R32). -/
def State.deliver (v : Delivered) (s : State) : State := { s with delivered := v :: s.delivered }

/-- The operation at the front is replaced by those it leaves to be performed. -/
def State.withPending (ops : List HostOp) (s : State) : State := { s with pending := ops }

/-- A loss of power leaves unspecified values in the registers, "after any power-up the reset … applies" (R86): the
reset is the next operation to be performed (log 5). -/
def State.losePower (result : ResultWord) (status : Word) (s : State) : State :=
  (s.setRegs result status).withPending (.reset :: s.pending)

end Sys2Proof.Machine
end

