-- ==== Sys2Proof/Machine/MaskExtract.lean ====
section
/-! DEFINITION. Family bitfield_mask_extract: the range check and the mask (R53, R54), BF.MASK (R55), BF.EXT (R56). -/

namespace Sys2Proof.Machine

/-- `check_range(from_bit, to_bit)` (R53): the fault it raises, if any. `to_bit = 32` passes (conflict C1). -/
def checkRange (fromBit toBit : Nat) : Option Cause :=
  if ¬ fromBit < 32 then some .invalidRange
  else if ¬ (fromBit ≤ toBit ∧ toBit ≤ 32) then some .invalidRange
  else none

/-- `mask(from_bit, to_bit) = (((1 << w) - 1) << from_bit) mod 2^32` (R54). -/
def mask (fromBit toBit : Nat) : Nat :=
  mod32 (((1 <<< fieldWidth fromBit toBit) - 1) <<< fromBit)

/-- `(mask & word) >> from_bit` (R56), which BF.EXTS uses too (R63). -/
def extractField (fromBit toBit word : Nat) : Nat := (mask fromBit toBit &&& word) >>> fromBit

/-- `exec(BF.MASK)` (R55). -/
def bfMaskOutcome (fromBit toBit : Nat) : CommandOutcome :=
  match checkRange fromBit toBit with
  | some c => .fault c
  | none => .ok (mask fromBit toBit)

/-- `exec(BF.EXT)` (R56). -/
def bfExtOutcome (fromBit toBit : Nat) (a : Word) : CommandOutcome :=
  match checkRange fromBit toBit with
  | some c => .fault c
  | none => .ok (extractField fromBit toBit (operandValue a))

/-- BF.MASK; A and B are ignored (R46, R55). -/
def execBfMask (fromBit toBit : Nat) (_a _b : Word) (s : State) : Host.Outcome State Fault Refusal :=
  .next (s.complete (bfMaskOutcome fromBit toBit))

/-- BF.EXT; B is ignored (R46, R56). -/
def execBfExt (fromBit toBit : Nat) (a _b : Word) (s : State) : Host.Outcome State Fault Refusal :=
  .next (s.complete (bfExtOutcome fromBit toBit a))

end Sys2Proof.Machine
end

