-- ==== Sys2Proof/Machine/Insert.lean ====
section
/-! DEFINITION. Family bitfield_insert: BF.INS (R65). -/

namespace Sys2Proof.Machine

/-- `A | (((B << from_bit) mod 2^32) & m)`: shift first, then mask, then OR (R65, conflict C4). Neither a value too
wide nor a target field that is not zero is checked (R66). -/
def insertField (fromBit toBit word value : Nat) : Nat :=
  word ||| (mod32 (value <<< fromBit) &&& mask fromBit toBit)

/-- `exec(BF.INS)` (R65). -/
def bfInsOutcome (fromBit toBit : Nat) (a b : Word) : CommandOutcome :=
  match checkRange fromBit toBit with
  | some c => .fault c
  | none => .ok (insertField fromBit toBit (operandValue a) (operandValue b))

/-- BF.INS (R65). -/
def execBfIns (fromBit toBit : Nat) (a b : Word) (s : State) : Host.Outcome State Fault Refusal :=
  .next (s.complete (bfInsOutcome fromBit toBit a b))

end Sys2Proof.Machine
end

