-- ==== Sys2Proof/Machine/SignExtend.lean ====
section
/-! DEFINITION. Family bitfield_sign_extend: SX (R59), SEXT (R62), BF.EXTS (R63). -/

namespace Sys2Proof.Machine

/-- `SX(field, width)` (R59). The width is checked before the field (R60); the bound `2^(width+1)` is loose on purpose
(conflict C3). -/
def signExtend (field width : Nat) : CommandOutcome :=
  if ¬ 1 < width then .fault .invalidWidth
  else if ¬ field < 2 ^ (width + 1) then .fault .fieldOutOfRange
  else
    let signBit := 1 <<< (width - 1)
    if field &&& signBit ≠ 0 then .ok (((field &&& (signBit - 1) : Nat) : Int) - (signBit : Int))
    else .ok field

/-- `exec(SEXT)` (R62). -/
def sextOutcome (width : Nat) (a : Word) : CommandOutcome := signExtend (operandValue a) width

/-- `exec(BF.EXTS)` (R63): the range check, then the extract, then SX. -/
def bfExtsOutcome (fromBit toBit : Nat) (a : Word) : CommandOutcome :=
  match checkRange fromBit toBit with
  | some c => .fault c
  | none => signExtend (extractField fromBit toBit (operandValue a)) (fieldWidth fromBit toBit)

/-- SEXT; B is ignored (R46, R62). -/
def execSext (width : Nat) (a _b : Word) (s : State) : Host.Outcome State Fault Refusal :=
  .next (s.complete (sextOutcome width a))

/-- BF.EXTS; B is ignored (R46, R63). -/
def execBfExts (fromBit toBit : Nat) (a _b : Word) (s : State) : Host.Outcome State Fault Refusal :=
  .next (s.complete (bfExtsOutcome fromBit toBit a))

end Sys2Proof.Machine
end

