-- ==== Sys2Proof/Machine/Dispatch.lean ====
section
/-! DEFINITION. One arm per constructor of `Instr` (R13). -/

namespace Sys2Proof.Machine

def exec (i : Instr) (s : State) : Host.Outcome State Fault Refusal :=
  match i with
  | .bfMask f t a b => Sys2Proof.Machine.execBfMask f t a b s
  | .bfExt f t a b => Sys2Proof.Machine.execBfExt f t a b s
  | .bfExts f t a b => Sys2Proof.Machine.execBfExts f t a b s
  | .bfIns f t a b => Sys2Proof.Machine.execBfIns f t a b s
  | .sext w a b => Sys2Proof.Machine.execSext w a b s

end Sys2Proof.Machine
end

