-- ==== Sys2Proof/Machine/HostPort.lean ====
section
/-! DEFINITION. What each operation of the host and the platform does to the unit (R28, R34, R86 to R88). -/

namespace Sys2Proof.Machine

/-- ISSUE: decode, then perform; a word that is no command completes with IllegalCommand (R44, R45). -/
def performIssue (c : Issue) (s : State) : Host.Outcome State Fault Refusal :=
  match decode c with
  | .command i => exec i s
  | .illegal _ => .next (s.complete (.fault .illegalCommand))

/-- A reset after what came before (R87, R88). -/
def andThenReset : Host.Outcome State Fault Refusal → Host.Outcome State Fault Refusal
  | .next s => .next s.applyReset
  | .fault r => .fault r
  | .refused r => .refused r

/-- An ISSUE coinciding with a reset: "one of the two sequential outcomes" (R88). -/
def performIssueWithReset (c : Issue) (first : Order) (s : State) : Host.Outcome State Fault Refusal :=
  match first with
  | .resetFirst => performIssue c s.applyReset
  | .commandFirst => andThenReset (performIssue c s)

/-- One operation, the rest already left pending (R28, R34). -/
def performHostOp (op : HostOp) (s : State) : Host.Outcome State Fault Refusal :=
  match op with
  | .issue c => performIssue c s
  | .readResult => .next (s.deliver (.result s.readResult))
  | .readStatus => .next (s.deliver (.status s.readStatus))
  | .reset => .next s.applyReset
  | .issueWithReset c first => performIssueWithReset c first s
  | .powerLoss r st => .next (s.losePower r st)

end Sys2Proof.Machine
end

