-- ==== Sys2Proof/Machine/Step.lean ====
section
/-! DEFINITION. One step: the operation at the front of what is pending, performed whole (R34, R96). -/

namespace Sys2Proof.Machine

/-- With nothing pending the unit "is idle and holds RESULT and STATUS unchanged" (R86). Otherwise the first operation
is performed, in the order the host issues them (R34). -/
def step (s : State) : Host.Outcome State Fault Refusal :=
  match s.pending with
  | [] => .next s
  | op :: rest => performHostOp op (s.withPending rest)

/-- The instruction of a table word as the next ISSUE the host presents, before whatever else is pending (log 3). -/
def State.withFetchWord (s : State) (nbits w : Nat) : State :=
  s.withPending (.issue (issueOfTableWord nbits w) :: s.pending)

end Sys2Proof.Machine
end

