-- ==== Sys2Proof/Config.lean ====
section
/-! DEFINITION. The implementation parameters (R5, R6). All are fixed by the spec. No value of any command is left
open (R97), so this file holds no free value. -/

namespace Sys2Proof.Config

/-- WORD_BITS (R5): "The source fixes this value; it is not a parameter." -/
abbrev wordBits : Nat := 32

/-- IDX_BITS, the width of the FROM and TO command fields (R6). -/
abbrev idxBits : Nat := 6

/-- WIDTH_BITS, the width of the WIDTH command field of SEXT (R6). -/
abbrev widthBits : Nat := 6

/-- RESULT_BITS, the width of the RESULT register (R6). -/
abbrev resultBits : Nat := 64

end Sys2Proof.Config
end

