-- ==== Sys2Proof/WellFormed.lean ====
section
/-! DEFINITION. Which commands can be encoded: "a `from`, `to` or `width` outside `[0, 63]`" is not encodable (R51).
Nothing else is checked here: range and width VALUES are the operation's to check (R45). -/

namespace Sys2Proof

/-- `from_bit` and `to_bit` each fit their 6-bit field (R40, R41). -/
def idxFits (n : Nat) : Bool := n < 2 ^ Config.idxBits

/-- `width` fits its 6-bit field (R40, R41). -/
def widthFits (n : Nat) : Bool := n < 2 ^ Config.widthBits

/-- The command has a command word (R41, R51). -/
def Instr.wellFormed : Instr → Bool
  | .bfMask f t _ _ => idxFits f && idxFits t
  | .bfExt f t _ _ => idxFits f && idxFits t
  | .bfExts f t _ _ => idxFits f && idxFits t
  | .bfIns f t _ _ => idxFits f && idxFits t
  | .sext w _ _ => widthFits w

end Sys2Proof
end

