-- ==== Sys2Proof/Machine/Assembler.lean ====
section
/-! DEFINITION. Assembler syntax (R49 to R51) and disassembly (R52). The unit never sees either: they are the spec's
rules for writing the words it is given. Log 12 names what R49 leaves open about the text. -/

namespace Sys2Proof.Asm

/-- A line of R49, its operands the integers written in it, in the order of R49: BF.INS has its value before its word. -/
inductive Line where
  | bfMask (fromBit toBit : Int)
  | bfExt (fromBit toBit a : Int)
  | bfExts (fromBit toBit a : Int)
  | bfIns (fromBit toBit b a : Int)
  | sext (width a : Int)
deriving DecidableEq, Repr

/-- A `from`, `to` or `width` outside `[0, 63]` is rejected, never truncated (R51). -/
def index? (v : Int) : Option Nat := if 0 ≤ v ∧ v < 64 then some v.toNat else none

/-- An `a` or `b` outside `[0, 2^32 - 1]` is rejected, never truncated (R51). -/
def word? (v : Int) : Option Word := if 0 ≤ v ∧ v < 2 ^ 32 then some (BitVec.ofNat 32 v.toNat) else none

/-- The command a line stands for (R49); an operand word the line does not name is 0 (log 12). -/
def command? : Line → Option Instr
  | .bfMask f t => (index? f).bind fun f => (index? t).map fun t => .bfMask f t 0 0
  | .bfExt f t a => (index? f).bind fun f => (index? t).bind fun t => (word? a).map fun a => .bfExt f t a 0
  | .bfExts f t a => (index? f).bind fun f => (index? t).bind fun t => (word? a).map fun a => .bfExts f t a 0
  | .bfIns f t b a =>
    (index? f).bind fun f => (index? t).bind fun t => (word? b).bind fun b => (word? a).map fun a => .bfIns f t a b
  | .sext w a => (index? w).bind fun w => (word? a).map fun a => .sext w a 0

/-- What the host issues for a line; none where an operand cannot be encoded (R51). -/
def assemble (l : Line) : Option Issue := (command? l).map encode

/-! ### Text (R49) -/

/-- The value of a digit, decimal or hexadecimal, of either case (log 12). -/
def digit? (c : Char) : Option Nat :=
  if '0' ≤ c ∧ c ≤ '9' then some (c.toNat - '0'.toNat)
  else if 'a' ≤ c ∧ c ≤ 'f' then some (c.toNat - 'a'.toNat + 10)
  else if 'A' ≤ c ∧ c ≤ 'F' then some (c.toNat - 'A'.toNat + 10)
  else none

/-- The value of digits in a base, after `acc`. -/
def digitsValue? (base : Nat) : List Char → Nat → Option Nat
  | [], acc => some acc
  | c :: cs, acc => (digit? c).bind fun d => if d < base then digitsValue? base cs (acc * base + d) else none

/-- "Operands are decimal or 0x-hex integers" (R49), without a sign. The prefix is `0x` as R49 writes it, and
leading zeros do not change a value (log 12). -/
def natural? : List Char → Option Nat
  | [] => none
  | '0' :: 'x' :: [] => none
  | '0' :: 'x' :: c :: cs => digitsValue? 16 (c :: cs) 0
  | c :: cs => digitsValue? 10 (c :: cs) 0

/-- An operand; a leading minus sign is read, so that R51 has something to reject (log 12). -/
def integer? : List Char → Option Int
  | '-' :: cs => (natural? cs).map fun n => -(n : Int)
  | cs => (natural? cs).map fun n => (n : Int)

/-- The text between commas (log 12). -/
def splitCommas : List Char → List (List Char)
  | [] => [[]]
  | ',' :: cs => [] :: splitCommas cs
  | c :: cs =>
    match splitCommas cs with
    | [] => [[c]]
    | w :: ws => (c :: w) :: ws

/-- Text without the blanks around it; the space is the only blank (log 12). -/
def trim (cs : List Char) : List Char :=
  ((cs.dropWhile (· == ' ')).reverse.dropWhile (· == ' ')).reverse

/-- The operands of a line, if each is an integer. -/
def operands? : List (List Char) → Option (List Int)
  | [] => some []
  | w :: ws => (integer? (trim w)).bind fun v => (operands? ws).map fun vs => v :: vs

/-- The line of a mnemonic and its operands (R49); there is no pseudo-instruction (R50). -/
def lineOf (mnemonic : List Char) (vs : List Int) : Option Line :=
  if mnemonic = ['B', 'F', '.', 'M', 'A', 'S', 'K'] then
    match vs with
    | [f, t] => some (.bfMask f t)
    | _ => none
  else if mnemonic = ['B', 'F', '.', 'E', 'X', 'T'] then
    match vs with
    | [f, t, a] => some (.bfExt f t a)
    | _ => none
  else if mnemonic = ['B', 'F', '.', 'E', 'X', 'T', 'S'] then
    match vs with
    | [f, t, a] => some (.bfExts f t a)
    | _ => none
  else if mnemonic = ['B', 'F', '.', 'I', 'N', 'S'] then
    match vs with
    | [f, t, b, a] => some (.bfIns f t b a)
    | _ => none
  else if mnemonic = ['S', 'E', 'X', 'T'] then
    match vs with
    | [w, a] => some (.sext w a)
    | _ => none
  else none

/-- The line a text is (R49). DESIGN CHOICE (log 12): a text is one line and carries no comment. The remarks from `;` on
that stand beside R49's lines are taken as the spec's own, and a text with a `;` in it is no line. -/
def parse (text : List Char) : Option Line :=
  let cs := trim text
  (operands? (splitCommas (cs.dropWhile (· != ' ')))).bind fun vs => lineOf (cs.takeWhile (· != ' ')) vs

/-- What the host issues for a line of text. -/
def assembleText (text : List Char) : Option Issue := (parse text).bind assemble

/-! ### Disassembly (R52) -/

/-- What a command word disassembles as: the fields that R48 encodes, or the word itself. -/
inductive Disassembly where
  | command (op fromBit toBit width : Nat)
  | rawWord (w : Word)
deriving DecidableEq, Repr

/-- "Disassembly is the inverse of rule R48 for every legal word" (R52); operand words play no part (R46). -/
def disassemble (w : Word) : Disassembly :=
  match decode ⟨w, 0, 0⟩ with
  | .command (.bfMask f t _ _) => .command 1 f t 0
  | .command (.bfExt f t _ _) => .command 2 f t 0
  | .command (.bfExts f t _ _) => .command 3 f t 0
  | .command (.bfIns f t _ _) => .command 4 f t 0
  | .command (.sext n _ _) => .command 5 0 0 n
  | .illegal _ => .rawWord w

/-- A digit as `0xXXXXXXXX` writes it. -/
def hexDigit (n : Nat) : Char := if n < 10 then Char.ofNat ('0'.toNat + n) else Char.ofNat ('A'.toNat + (n - 10))

/-- The lowest `k` hexadecimal digits of a number, the highest first. -/
def hexDigits : Nat → Nat → List Char
  | 0, _ => []
  | k + 1, n => hexDigits k (n / 16) ++ [hexDigit (n % 16)]

/-- A field value below 100 in decimal (every field is below 64, R40). -/
def decimal (n : Nat) : List Char :=
  if n < 10 then [hexDigit n] else [hexDigit (n / 10), hexDigit (n % 10)]

/-- The mnemonic of an OP value (R42). -/
def mnemonic : Nat → List Char
  | 1 => ['B', 'F', '.', 'M', 'A', 'S', 'K']
  | 2 => ['B', 'F', '.', 'E', 'X', 'T']
  | 3 => ['B', 'F', '.', 'E', 'X', 'T', 'S']
  | 4 => ['B', 'F', '.', 'I', 'N', 'S']
  | _ => ['S', 'E', 'X', 'T']

/-- The text of a disassembled word, as R48 and R52 write it. -/
def Disassembly.text : Disassembly → List Char
  | .command 5 _ _ w => mnemonic 5 ++ [' '] ++ decimal w
  | .command op f t _ => mnemonic op ++ [' '] ++ decimal f ++ [',', ' '] ++ decimal t
  | .rawWord w => ['.', 'w', 'o', 'r', 'd', ' ', '0', 'x'] ++ hexDigits 8 w.toNat

end Sys2Proof.Asm
end

