-- ==== Sys2Proof/Safety.lean ====
section
/-! DEFINITION. The terms the statements use: what a legal state is, the two updates a command can make, the fields of
a command word and the fault they call for read by arithmetic alone, and a reference datapath on native 32-bit words.
Nothing here is used by the machine. -/

namespace Sys2Proof.Safety

open Sys2Proof.Machine

/-! ### The two updates of R24, written with the numerals of R20 -/

/-- STATUS after a command without fault: only STICKY may be set, as it was (R20, R24). -/
def statusOk (sticky : Bool) : Word := if sticky then 0x10#32 else 0#32

/-- STATUS after a fault of code `code`: `0x10 | (code << 1) | 1` (R20, R24). -/
def statusFault (code : Nat) : Word := BitVec.ofNat 32 (0x11 + 2 * code)

/-- The state after a command that ends in `Ok` with RESULT `r`: nothing but RESULT and STATUS changes (R24). -/
def okState (s : State) (r : ResultWord) : State := { s with result := r, status := statusOk s.sticky }

/-- The state after a command that ends in `Fault` with the given code (R24). -/
def faultState (s : State) (code : Nat) : State := { s with result := 0, status := statusFault code }

/-! ### The invariant -/

/-- RESULT and STATUS hold what some completed command or reset can leave in them: the reserved bits are 0 and CAUSE is
at most 4 (R20), FLT is 1 exactly when CAUSE is not 0 (R22), a fault has set STICKY (R23) and cleared RESULT (R19), and
RESULT is a value of `[-2^31, 2^32 - 1]` (R19). -/
structure RegsLegal (s : State) : Prop where
  reserved_zero : s.reserved = 0
  cause_le_four : s.cause.toNat ≤ 4
  flt_iff_cause : s.flt = true ↔ s.cause ≠ 0
  flt_sticky    : s.flt = true → s.sticky = true
  flt_result    : s.flt = true → s.result = 0
  result_low    : -2 ^ 31 ≤ s.result.toInt
  result_high   : s.result.toInt ≤ 2 ^ 32 - 1

/-- The registers are legal, but between a loss of power and the reset that then is the next operation (R86). -/
def Inv (s : State) : Prop := RegsLegal s ∨ s.pending.head? = some .reset

/-! ### A command word by arithmetic (R40) -/

/-- OP. -/
def opOf (w : Word) : Nat := w.toNat % 2 ^ 4

/-- FROM. -/
def fromOf (w : Word) : Nat := w.toNat / 2 ^ 4 % 2 ^ 6

/-- TO. -/
def toOf (w : Word) : Nat := w.toNat / 2 ^ 10 % 2 ^ 6

/-- WIDTH. -/
def widthOf (w : Word) : Nat := w.toNat / 2 ^ 16 % 2 ^ 6

/-- RSV. -/
def rsvOf (w : Word) : Nat := w.toNat / 2 ^ 22

/-- A field that this OP does not use, or RSV, is not zero (R43). -/
abbrev strayBits (w : Word) : Prop :=
  rsvOf w ≠ 0 ∨ (opOf w ≠ 5 ∧ widthOf w ≠ 0) ∨ (opOf w = 5 ∧ (fromOf w ≠ 0 ∨ toOf w ≠ 0))

/-- The word is no command (R45). -/
abbrev illegalWord (w : Word) : Prop := opOf w = 0 ∨ 6 ≤ opOf w ∨ strayBits w

/-- The range passes the source's construction check (R53). -/
abbrev rangeValid (fromBit toBit : Nat) : Prop := fromBit < 32 ∧ fromBit ≤ toBit ∧ toBit ≤ 32

/-- The code of the fault an issued command must report, the first that applies in the order of R70; 0 for none (R68). -/
def firstFault (c : Issue) : Nat :=
  if illegalWord c.cmd then 1
  else if opOf c.cmd ≠ 5 ∧ ¬ rangeValid (fromOf c.cmd) (toOf c.cmd) then 2
  else if (opOf c.cmd = 5 ∧ widthOf c.cmd ≤ 1) ∨ (opOf c.cmd = 3 ∧ fromOf c.cmd = toOf c.cmd) then 3
  else if opOf c.cmd = 5 ∧ 2 ^ (widthOf c.cmd + 1) ≤ c.a.toNat then 4
  else 0

/-! ### Values by arithmetic -/

/-- The mask as a number (R54). -/
def maskValue (fromBit toBit : Nat) : Nat := (2 ^ (toBit - fromBit + 1) - 1) * 2 ^ fromBit % 2 ^ 32

/-- The number that the bits `[lo .. hi]` of a word are (R7). -/
def sliceValue (w : Word) (lo hi : Nat) : Nat := w.toNat / 2 ^ lo % 2 ^ (hi - lo + 1)

/-- SX where its checks pass (R59): bit `width - 1` of the field is its sign. -/
def sxValue (field width : Nat) : Int :=
  if field / 2 ^ (width - 1) % 2 = 1 then (field % 2 ^ (width - 1) : Nat) - 2 ^ (width - 1) else field

/-! ### A reference datapath on native 32-bit words (R10) -/

/-- The mask in 32-bit arithmetic "in which `1 << 32` and `1 << 33` are 0" (R54). -/
def nativeMask (fromBit toBit : Nat) : Word := ((1#32 <<< (toBit - fromBit + 1)) - 1#32) <<< fromBit

/-- Extraction in 32-bit arithmetic. -/
def nativeExtract (fromBit toBit : Nat) (a : Word) : Word := (nativeMask fromBit toBit &&& a) >>> fromBit

/-- Insertion in 32-bit arithmetic. -/
def nativeInsert (fromBit toBit : Nat) (a b : Word) : Word := a ||| ((b <<< fromBit) &&& nativeMask fromBit toBit)

/-- Sign extension as hardware does it: shift the sign bit to bit 31, shift back arithmetically, widen; a word whose
sign bit is clear or lies outside the word is passed on unsigned. -/
def nativeSignExtend (v : Word) (width : Nat) : ResultWord :=
  if v.getLsbD (width - 1) then ((v <<< (32 - width)).sshiftRight (32 - width)).signExtend 64 else v.setWidth 64

/-- RESULT of a command that does not fault, computed on native words from the fields of its word. -/
def nativeResult (c : Issue) : ResultWord :=
  match opOf c.cmd with
  | 1 => (nativeMask (fromOf c.cmd) (toOf c.cmd)).setWidth 64
  | 2 => (nativeExtract (fromOf c.cmd) (toOf c.cmd) c.a).setWidth 64
  | 3 => nativeSignExtend (nativeExtract (fromOf c.cmd) (toOf c.cmd) c.a) (toOf c.cmd - fromOf c.cmd + 1)
  | 4 => (nativeInsert (fromOf c.cmd) (toOf c.cmd) c.a c.b).setWidth 64
  | _ => nativeSignExtend c.a (widthOf c.cmd)

/-- RESULT after an issued command (R19). -/
def resultOf (c : Issue) : ResultWord := if firstFault c = 0 then nativeResult c else 0

/-- STATUS after an issued command, from STICKY before it (R24). -/
def statusOf (sticky : Bool) (c : Issue) : Word :=
  if firstFault c = 0 then statusOk sticky else statusFault (firstFault c)

/-! ### Histories -/

/-- An issued command faults. -/
def faults (c : Issue) : Bool := firstFault c ≠ 0

/-- The operations performed in so many steps, in order: one a step, and after a loss of power the reset (R34, R86). -/
def performed : Nat → List HostOp → List HostOp
  | 0, _ => []
  | _ + 1, [] => []
  | k + 1, .powerLoss r st :: ops => .powerLoss r st :: performed k (.reset :: ops)
  | k + 1, op :: ops => op :: performed k ops

/-- STICKY as history alone determines it: "1 iff any command has faulted since reset" (R20); power loss leaves what it
leaves (R86). -/
def stickyAfter : Bool → List HostOp → Bool
  | b, [] => b
  | b, .issue c :: ops => stickyAfter (b || faults c) ops
  | b, .readResult :: ops => stickyAfter b ops
  | b, .readStatus :: ops => stickyAfter b ops
  | _, .reset :: ops => stickyAfter false ops
  | _, .issueWithReset c .resetFirst :: ops => stickyAfter (faults c) ops
  | _, .issueWithReset _ .commandFirst :: ops => stickyAfter false ops
  | _, .powerLoss _ st :: ops => stickyAfter (st.getLsbD 4) ops

/-- A requester's transaction: it issues a command and reads both registers before any other command (R84, R90). -/
def transaction (c : Issue) : List HostOp := [.issue c, .readResult, .readStatus]

/-- What the reads of these transactions must return, the first first. -/
def expectedReads : Bool → List Issue → List Delivered
  | _, [] => []
  | sticky, c :: cs =>
    .result (resultOf c) :: .status (statusOf sticky c) :: expectedReads (sticky || faults c) cs

end Sys2Proof.Safety
end

