-- ==== Sys2Proof/Certificates/Slice0/Obligations.lean ====
section
/-! DEFINITION. The statements for the provers, in the order of the spec's files. -/

open Sys2Proof Sys2Proof.Machine Sys2Proof.Safety

/-! ## Reset and the registers (10_state.md, 70_reset_and_hazards.md) -/

/-- R27: after reset RESULT and STATUS are 0, both in the state a run starts from and after a reset of any state. -/
def Obligations.ResetLeavesBothRegistersZero : Prop :=
  core.reset = State.reset ∧ State.reset.result = 0 ∧ State.reset.status = 0 ∧
  ∀ (s : State) (rest : List HostOp), s.pending = .reset :: rest →
    ∃ t : State, step s = .next t ∧ t.result = 0 ∧ t.status = 0 ∧ t.pending = rest

/-- The registers are legal in the state after reset (R19, R20, R22, R27). -/
def Obligations.ResetStateIsLegal : Prop := RegsLegal State.reset ∧ Inv State.reset

/-- Every step keeps the registers legal: reserved bits 0 and CAUSE at most 4 (R20), FLT 1 exactly when CAUSE is not 0
(R22), a fault shows in STICKY and leaves RESULT 0, RESULT in range (R19). Between a power loss and its reset the
registers hold any value (R86; that nothing is performed between the two is log 5). -/
def Obligations.EveryStepKeepsTheRegistersLegal : Prop :=
  ∀ s : State, Inv s → ∃ t : State, step s = .next t ∧ Inv t

/-- R24: a command's completion applies its own outcome in one update: where no fault applies, an integer r of
`[-2^31, 2^32 - 1]` whose `sext_64` is the command's result, FLT and CAUSE cleared and STICKY kept; where one applies,
RESULT 0 and the first fault's code, with FLT and STICKY set. Nothing else changes. -/
def Obligations.CompletionIsOneOfTheTwoUpdates : Prop :=
  ∀ (c : Issue) (s : State) (rest : List HostOp), s.pending = .issue c :: rest →
    (firstFault c = 0 → ∃ r : Int, -2 ^ 31 ≤ r ∧ r ≤ 2 ^ 32 - 1 ∧ BitVec.ofInt 64 r = resultOf c ∧
      step s = .next (okState { s with pending := rest } (BitVec.ofInt 64 r))) ∧
    (firstFault c ≠ 0 → firstFault c ≤ 4 ∧ step s = .next (faultState { s with pending := rest } (firstFault c)))

/-- R16: a command's outcome depends only on its own CMD, A and B; of what was before, only STICKY has a part, and only
in STICKY. The two states need agree in nothing. -/
def Obligations.OutcomeDependsOnlyOnTheCommand : Prop :=
  ∀ (c : Issue) (s s' : State) (rest rest' : List HostOp),
    s.pending = .issue c :: rest → s'.pending = .issue c :: rest' →
    ∃ t t' : State, step s = .next t ∧ step s' = .next t' ∧
      t.result = t'.result ∧ t.flt = t'.flt ∧ t.cause = t'.cause ∧
      t.sticky = (s.sticky || t.flt) ∧ t'.sticky = (s'.sticky || t'.flt) ∧ t.reserved = t'.reserved

/-- R23: a command that faults sets STICKY, one that does not leaves it, and only reset clears it. A power loss is no
event of R23: what it leaves is not specified (R86), so its step is set apart. -/
def Obligations.StickyIsSetByFaultsAndClearedByReset : Prop :=
  (∀ (c : Issue) (s : State) (rest : List HostOp), s.pending = .issue c :: rest →
    ∃ t : State, step s = .next t ∧ (firstFault c ≠ 0 → t.sticky = true) ∧ (firstFault c = 0 → t.sticky = s.sticky)) ∧
  (∀ s : State, (∀ r st, s.pending.head? ≠ some (.powerLoss r st)) → s.sticky = true →
    ∃ t : State, step s = .next t ∧
      (t.sticky = false → s.pending.head? = some .reset ∨ ∃ c first, s.pending.head? = some (.issueWithReset c first)))

/-- STICKY over a whole run is what the history alone says: 1 exactly when some command has faulted since the last reset
(or STICKY was already 1 and there was no reset). From every state, for every list of operations, however long. -/
def Obligations.StickyRecordsTheFaultHistory : Prop :=
  ∀ (k : Nat) (s : State), ∃ t : State, core.run k s = .next t ∧
    t.sticky = stickyAfter s.sticky (performed k s.pending)

/-- R88: an ISSUE that coincides with a reset has one of the two sequential outcomes, each for one choice of the
platform. That the platform's choice stands in the event is the model's (log 4). -/
def Obligations.CoincidenceIsSequential : Prop :=
  ∀ (c : Issue) (s : State) (rest : List HostOp),
    (s.pending = .issueWithReset c .resetFirst :: rest →
      step s = core.run 2 { s with pending := .reset :: .issue c :: rest }) ∧
    (s.pending = .issueWithReset c .commandFirst :: rest →
      step s = core.run 2 { s with pending := .issue c :: .reset :: rest })

/-- After a power loss, whatever it left in the registers, the next operation is the reset (R86; log 5). -/
def Obligations.PowerLossIsFollowedByReset : Prop :=
  ∀ (r : ResultWord) (st : Word) (s : State) (rest : List HostOp), s.pending = .powerLoss r st :: rest →
    (∃ t : State, step s = .next t ∧ t.result = r ∧ t.status = st &&& 0x1F#32 ∧ t.pending = .reset :: rest ∧
      t.delivered = s.delivered) ∧
    core.run 2 s = .next { s with result := 0, status := 0, pending := rest }

/-- With nothing pending the unit is idle and holds everything (R86; log 3). -/
def Obligations.IdleUnitHoldsItsState : Prop :=
  ∀ (k : Nat) (s : State), s.pending = [] → core.run k s = .next s

/-- R96: every step completes, from every state. -/
def Obligations.EveryStepCompletes : Prop :=
  (∀ (i : Instr) (s : State), ∃ t : State, exec i s = .next t) ∧ ∀ s : State, ∃ t : State, step s = .next t

/-! ## The host's operations (20_memory.md) -/

/-- R32: a read returns its register and changes nothing of the unit; two reads with no ISSUE between them return equal
values; ISSUE changes RESULT and STATUS only. -/
def Obligations.ReadsHaveNoEffectAndRepeat : Prop :=
  (∀ (s : State) (rest : List HostOp), s.pending = .readResult :: rest →
    step s = .next { s with pending := rest, delivered := .result s.result :: s.delivered }) ∧
  (∀ (s : State) (rest : List HostOp), s.pending = .readStatus :: rest →
    step s = .next { s with pending := rest, delivered := .status (s.status &&& 0x1F#32) :: s.delivered }) ∧
  (∀ (s : State) (rest : List HostOp), s.pending = .readResult :: .readStatus :: .readResult :: .readStatus :: rest →
    ∃ (t : State) (r : ResultWord) (st : Word), core.run 4 s = .next t ∧
      t.delivered = [.status st, .result r, .status st, .result r] ++ s.delivered ∧
      t.result = s.result ∧ t.status = s.status) ∧
  (∀ (c : Issue) (s : State) (rest : List HostOp), s.pending = .issue c :: rest →
    ∃ (r : ResultWord) (st : Word), step s = .next { s with result := r, status := st, pending := rest })

/-- A step performs the decoded command: where the word at the front decodes, step is exec with that operation taken
off; where it does not, the command completes with IllegalCommand (R34, R44, R45). -/
def Obligations.StepRunsTheDecodedCommand : Prop :=
  ∀ (c : Issue) (s : State) (rest : List HostOp), s.pending = .issue c :: rest →
    (∀ i : Instr, decode c = .command i → step s = exec i { s with pending := rest }) ∧
    (∀ why : Illegal, decode c = .illegal why → step s = .next (faultState { s with pending := rest } 1))

/-- What an instruction leaves unchanged: exec writes RESULT and STATUS only, and the reserved bits of STATUS read 0.
There is no other register, no memory and no program counter (R14, R17, R18, R24, R28). -/
def Obligations.ExecWritesOnlyResultAndStatus : Prop :=
  ∀ (i : Instr) (s t : State), exec i s = .next t →
    t.pending = s.pending ∧ t.delivered = s.delivered ∧ t.reserved = 0

/-- Every list of transactions (issue, read RESULT, read STATUS), of one requester or of several in any order, returns
to each what its own command computes, with STICKY as the faults so far leave it (R16, R34, R84, R94). -/
def Obligations.TransactionsReturnTheirOwnResults : Prop :=
  ∀ (cs : List Issue) (s : State) (rest : List HostOp), s.pending = cs.flatMap transaction ++ rest →
    ∃ t : State, core.run (3 * cs.length) s = .next t ∧ t.pending = rest ∧
      t.delivered = (expectedReads s.sticky cs).reverse ++ s.delivered

/-! ## Encoding (30_encoding.md) -/

/-- Words written out from R40, R42 and R48 decode to the commands they stand for. -/
def Obligations.WordsOfTheSpecDecode : Prop :=
  ∀ a b : Word,
    decode ⟨0b0000000000_000000_000101_000011_0001#32, a, b⟩ = .command (.bfMask 3 5 a b) ∧
    decode ⟨0b0000000000_000000_000011_000000_0010#32, a, b⟩ = .command (.bfExt 0 3 a b) ∧
    decode ⟨0b0000000000_000000_000111_000000_0011#32, a, b⟩ = .command (.bfExts 0 7 a b) ∧
    decode ⟨0b0000000000_000000_000101_000011_0100#32, a, b⟩ = .command (.bfIns 3 5 a b) ∧
    decode ⟨0b0000000000_000011_000000_000000_0101#32, a, b⟩ = .command (.sext 3 a b)

/-- Encoding and decoding agree for every command that has a word, at every value of every field. -/
def Obligations.DecodeOfEncodeIsTheCommand : Prop :=
  ∀ i : Instr, i.wellFormed = true → decode (encode i) = .command i

/-- The fields of a decoded command are the word's fields as numbers, neither signed nor scaled, and its operand words
are A and B (R41). -/
def Obligations.DecodedFieldsAreTheWordsFields : Prop :=
  ∀ (c : Issue) (i : Instr), decode c = .command i →
    i = .bfMask (fromOf c.cmd) (toOf c.cmd) c.a c.b ∧ opOf c.cmd = 1 ∨
    i = .bfExt (fromOf c.cmd) (toOf c.cmd) c.a c.b ∧ opOf c.cmd = 2 ∨
    i = .bfExts (fromOf c.cmd) (toOf c.cmd) c.a c.b ∧ opOf c.cmd = 3 ∨
    i = .bfIns (fromOf c.cmd) (toOf c.cmd) c.a c.b ∧ opOf c.cmd = 4 ∨
    i = .sext (widthOf c.cmd) c.a c.b ∧ opOf c.cmd = 5

/-- R42 and R47: the match and mask values of the table select exactly the words that decode to each command, at most
one row matches, and a word that matches none is illegal. -/
def Obligations.MatchAndMaskSelectTheLegalWords : Prop :=
  ∀ c : Issue,
    ((∃ f t, decode c = .command (.bfMask f t c.a c.b)) ↔ c.cmd &&& 0xFFFF000F#32 = 0x00000001#32) ∧
    ((∃ f t, decode c = .command (.bfExt f t c.a c.b)) ↔ c.cmd &&& 0xFFFF000F#32 = 0x00000002#32) ∧
    ((∃ f t, decode c = .command (.bfExts f t c.a c.b)) ↔ c.cmd &&& 0xFFFF000F#32 = 0x00000003#32) ∧
    ((∃ f t, decode c = .command (.bfIns f t c.a c.b)) ↔ c.cmd &&& 0xFFFF000F#32 = 0x00000004#32) ∧
    ((∃ w, decode c = .command (.sext w c.a c.b)) ↔ c.cmd &&& 0xFFC0FFFF#32 = 0x00000005#32) ∧
    ¬ (c.cmd &&& 0xFFFF000F#32 ∈ [1#32, 2#32, 3#32, 4#32] ∧ c.cmd &&& 0xFFC0FFFF#32 = 5#32) ∧
    ((∃ why, decode c = .illegal why) ↔
      c.cmd &&& 0xFFFF000F#32 ∉ [1#32, 2#32, 3#32, 4#32] ∧ c.cmd &&& 0xFFC0FFFF#32 ≠ 5#32)

/-- R43: stray bits in a word with OP 0x1 to 0x5 raise IllegalCommand, and each command has exactly one spelling. -/
def Obligations.EveryLegalWordHasOneSpelling : Prop :=
  (∀ (c : Issue) (s : State) (rest : List HostOp), s.pending = .issue c :: rest →
    1 ≤ opOf c.cmd → opOf c.cmd ≤ 5 → strayBits c.cmd → step s = .next (faultState { s with pending := rest } 1)) ∧
  (∀ (c : Issue) (i : Instr), decode c = .command i → i.wellFormed = true ∧ encode i = c)

/-- R44: OP 0x0 and 0x6 to 0xF raise IllegalCommand, with no effect but the update of R24; the all-zero word is one. -/
def Obligations.IllegalOpcodesAreRejected : Prop :=
  (∀ (c : Issue) (s : State) (rest : List HostOp), s.pending = .issue c :: rest →
    opOf c.cmd = 0 ∨ 6 ≤ opOf c.cmd → step s = .next (faultState { s with pending := rest } 1)) ∧
  (∀ (a b : Word) (s : State) (rest : List HostOp), s.pending = .issue ⟨0, a, b⟩ :: rest →
    step s = .next (faultState { s with pending := rest } 1))

/-- R45: decode refuses exactly the words its four conditions name, and those raise IllegalCommand; ranges and widths
that fail a check still decode, and fault later with InvalidRange or InvalidWidth. -/
def Obligations.DecodeRefusesOnlySpellings : Prop :=
  (∀ c : Issue, (∃ why, decode c = .illegal why) ↔ illegalWord c.cmd) ∧
  (∀ (c : Issue) (s : State) (rest : List HostOp), s.pending = .issue c :: rest → illegalWord c.cmd →
    step s = .next (faultState { s with pending := rest } 1)) ∧
  (∀ (f t : Nat) (a b : Word) (s : State), f < 64 → t < 64 → ¬ rangeValid f t →
    ∀ i ∈ [Instr.bfMask f t a b, .bfExt f t a b, .bfExts f t a b, .bfIns f t a b],
      (∃ c, decode c = .command i) ∧ exec i s = .next (faultState s 2)) ∧
  (∀ (w : Nat) (a b : Word) (s : State), w ≤ 1 →
    (∃ c, decode c = .command (.sext w a b)) ∧ exec (.sext w a b) s = .next (faultState s 3))

/-- R46: an operand word that a command ignores changes nothing and faults nothing: B for every word but those of BF.INS,
A as well for those of BF.MASK and for the illegal ones. -/
def Obligations.IgnoredOperandsNeverMatter : Prop :=
  ∀ (cmd a b a' b' : Word) (s s' : State) (rest : List HostOp),
    s.pending = .issue ⟨cmd, a, b⟩ :: rest →
    (opOf cmd ≠ 4 → s' = { s with pending := .issue ⟨cmd, a, b'⟩ :: rest } → step s' = step s) ∧
    (opOf cmd = 1 ∨ illegalWord cmd → s' = { s with pending := .issue ⟨cmd, a', b'⟩ :: rest } → step s' = step s)

/-- R48: `enc` is the OR of the shifted fields and places each at its bits, the worked words are its values, and the
last of them decodes and then faults with InvalidRange. -/
def Obligations.EncodingPlacesTheFields : Prop :=
  (∀ op f t w : Nat, op < 16 → f < 64 → t < 64 → w < 64 →
    enc op f t w = op ||| (f <<< 4) ||| (t <<< 10) ||| (w <<< 16) ∧
    enc op f t w = op + 2 ^ 4 * f + 2 ^ 10 * t + 2 ^ 16 * w) ∧
  (∀ a b : Word, encode (.bfIns 3 5 a b) = ⟨0x00001434, a, b⟩ ∧ encode (.bfExt 0 3 a b) = ⟨0x00000C02, a, b⟩ ∧
    encode (.bfExts 0 7 a b) = ⟨0x00001C03, a, b⟩ ∧ encode (.sext 3 a b) = ⟨0x00030005, a, b⟩ ∧
    encode (.bfMask 5 3 a b) = ⟨0x00000C51, a, b⟩) ∧
  (∀ (a b : Word) (s : State), decode ⟨0x00000C51, a, b⟩ = .command (.bfMask 5 3 a b) ∧
    exec (.bfMask 5 3 a b) s = .next (faultState s 2))

/-- R51: the assembler rejects exactly the lines with an operand that cannot be encoded, and truncates nothing: the word
it gives decodes to the very numbers of the line. -/
def Obligations.AssemblerRejectsOnlyTheUnencodable : Prop :=
  (∀ f t : Int,
    ((0 ≤ f ∧ f ≤ 63) ∧ (0 ≤ t ∧ t ≤ 63) →
      ∃ c x y, Asm.assemble (.bfMask f t) = some c ∧ decode c = .command (.bfMask f.toNat t.toNat x y)) ∧
    (¬ ((0 ≤ f ∧ f ≤ 63) ∧ (0 ≤ t ∧ t ≤ 63)) → Asm.assemble (.bfMask f t) = none)) ∧
  (∀ f t a : Int,
    ((0 ≤ f ∧ f ≤ 63) ∧ (0 ≤ t ∧ t ≤ 63) ∧ (0 ≤ a ∧ a ≤ 2 ^ 32 - 1) →
      (∃ c y, Asm.assemble (.bfExt f t a) = some c ∧
        decode c = .command (.bfExt f.toNat t.toNat (BitVec.ofInt 32 a) y)) ∧
      (∃ c y, Asm.assemble (.bfExts f t a) = some c ∧
        decode c = .command (.bfExts f.toNat t.toNat (BitVec.ofInt 32 a) y))) ∧
    (¬ ((0 ≤ f ∧ f ≤ 63) ∧ (0 ≤ t ∧ t ≤ 63) ∧ (0 ≤ a ∧ a ≤ 2 ^ 32 - 1)) →
      Asm.assemble (.bfExt f t a) = none ∧ Asm.assemble (.bfExts f t a) = none)) ∧
  (∀ f t b a : Int,
    ((0 ≤ f ∧ f ≤ 63) ∧ (0 ≤ t ∧ t ≤ 63) ∧ (0 ≤ a ∧ a ≤ 2 ^ 32 - 1) ∧ (0 ≤ b ∧ b ≤ 2 ^ 32 - 1) →
      ∃ c, Asm.assemble (.bfIns f t b a) = some c ∧
        decode c = .command (.bfIns f.toNat t.toNat (BitVec.ofInt 32 a) (BitVec.ofInt 32 b))) ∧
    (¬ ((0 ≤ f ∧ f ≤ 63) ∧ (0 ≤ t ∧ t ≤ 63) ∧ (0 ≤ a ∧ a ≤ 2 ^ 32 - 1) ∧ (0 ≤ b ∧ b ≤ 2 ^ 32 - 1)) →
      Asm.assemble (.bfIns f t b a) = none)) ∧
  (∀ w a : Int,
    ((0 ≤ w ∧ w ≤ 63) ∧ (0 ≤ a ∧ a ≤ 2 ^ 32 - 1) →
      ∃ c y, Asm.assemble (.sext w a) = some c ∧ decode c = .command (.sext w.toNat (BitVec.ofInt 32 a) y)) ∧
    (¬ ((0 ≤ w ∧ w ≤ 63) ∧ (0 ≤ a ∧ a ≤ 2 ^ 32 - 1)) → Asm.assemble (.sext w a) = none))

/-- R52: disassembly inverts R48 on every legal word; an illegal word is written `.word 0x` and its eight hexadecimal
digits. -/
def Obligations.DisassemblyInvertsEncoding : Prop :=
  ∀ w : Word,
    (¬ illegalWord w → ∃ op f t n : Nat, Asm.disassemble w = .command op f t n ∧ BitVec.ofNat 32 (enc op f t n) = w ∧
      op = opOf w ∧ f = fromOf w ∧ t = toOf w ∧ n = widthOf w) ∧
    (illegalWord w → Asm.disassemble w = .rawWord w ∧ ∃ ds : List Char,
      (Asm.disassemble w).text = ['.', 'w', 'o', 'r', 'd', ' ', '0', 'x'] ++ ds ∧ ds.length = 8 ∧
      Asm.digitsValue? 16 ds 0 = some w.toNat)

/-! ## Masks and extraction (40_mask_extract.md) -/

/-- R53: the four commands that take a range report InvalidRange exactly when the source's check fails; the loose
`to_bit = 32` passes. -/
def Obligations.RangeCheckIsTheSourcesLooseCheck : Prop :=
  ∀ (f t : Nat) (a b : Word) (s : State) (i : Instr),
    i ∈ [.bfMask f t a b, .bfExt f t a b, .bfExts f t a b, .bfIns f t a b] →
    ∃ u : State, exec i s = .next u ∧ (u.cause = 2 ↔ ¬ (0 ≤ f ∧ f < 32 ∧ f ≤ t ∧ t ≤ 32)) ∧
      (u.cause = 2 → u = faultState s 2)

/-- R54: the mask is the closed form modulo 2^32, the same word as native 32-bit arithmetic gives, and both have the
bits `from_bit .. min(to_bit, 31)` set. -/
def Obligations.MaskIsTheClosedForm : Prop :=
  ∀ (f t : Nat) (a b : Word) (s : State), rangeValid f t →
    ∃ r : ResultWord, exec (.bfMask f t a b) s = .next (okState s r) ∧
      r.toNat = maskValue f t ∧ r = (nativeMask f t).setWidth 64 ∧
      ∀ i : Nat, (nativeMask f t).getLsbD i = decide (f ≤ i ∧ i ≤ min t 31)

/-- R57: BF.MASK completes on every valid range with exactly the bits `from_bit .. min(to_bit, 31)` set, and so many of
them. -/
def Obligations.MaskBitsRunFromFromToTo : Prop :=
  ∀ (f t : Nat) (a b : Word) (s : State), rangeValid f t →
    ∃ r : ResultWord, exec (.bfMask f t a b) s = .next (okState s r) ∧
      (∀ i : Nat, r.getLsbD i = true ↔ f ≤ i ∧ i ≤ min t 31) ∧
      (List.range 64).countP (fun i => r.getLsbD i) = if t ≤ 31 then t - f + 1 else 32 - f

/-- R58: BF.EXT completes on every valid range and every A with `A[min(to_bit,31) : from_bit]`, in its range. -/
def Obligations.ExtractIsTheBitSlice : Prop :=
  ∀ (f t : Nat) (a b : Word) (s : State), rangeValid f t →
    ∃ r : ResultWord, exec (.bfExt f t a b) s = .next (okState s r) ∧
      r.toNat = sliceValue a f (min t 31) ∧
      (∀ i : Nat, r.getLsbD i = (decide (i ≤ min t 31 - f) && a.getLsbD (f + i))) ∧
      r.toNat ≤ 2 ^ (min t 31 - f + 1) - 1 ∧ r.toNat ≤ 2 ^ (t - f + 1) - 1

/-- R55, whole: what an ISSUE with OP 0x1 does, for every word, operands and state. -/
def Obligations.BfMaskCommand : Prop :=
  ∀ (c : Issue) (s : State) (rest : List HostOp), s.pending = .issue c :: rest → opOf c.cmd = 1 →
    step s = .next (
      if widthOf c.cmd ≠ 0 ∨ rsvOf c.cmd ≠ 0 then faultState { s with pending := rest } 1
      else if ¬ rangeValid (fromOf c.cmd) (toOf c.cmd) then faultState { s with pending := rest } 2
      else okState { s with pending := rest } (BitVec.ofNat 64 (maskValue (fromOf c.cmd) (toOf c.cmd))))

/-- R56, whole: what an ISSUE with OP 0x2 does, for every word, operands and state. -/
def Obligations.BfExtCommand : Prop :=
  ∀ (c : Issue) (s : State) (rest : List HostOp), s.pending = .issue c :: rest → opOf c.cmd = 2 →
    step s = .next (
      if widthOf c.cmd ≠ 0 ∨ rsvOf c.cmd ≠ 0 then faultState { s with pending := rest } 1
      else if ¬ rangeValid (fromOf c.cmd) (toOf c.cmd) then faultState { s with pending := rest } 2
      else okState { s with pending := rest }
        (BitVec.ofNat 64 ((maskValue (fromOf c.cmd) (toOf c.cmd) &&& c.a.toNat) / 2 ^ fromOf c.cmd)))

/-! ## Sign extension (41_sign_extend.md) -/

/-- R59 and R60: SEXT completes exactly where SX's checks pass, the width checked first; the slack range is accepted,
with bit `width` dropped when the sign is set and kept when it is clear. -/
def Obligations.SignExtendFollowsTheAlgorithm : Prop :=
  ∀ (w : Nat) (a b : Word) (s : State),
    (w ≤ 1 → exec (.sext w a b) s = .next (faultState s 3)) ∧
    (1 < w → 2 ^ (w + 1) ≤ a.toNat → exec (.sext w a b) s = .next (faultState s 4)) ∧
    (1 < w → a.toNat < 2 ^ (w + 1) → a.getLsbD (w - 1) = true →
      exec (.sext w a b) s = .next (okState s (BitVec.ofInt 64 ((a.toNat % 2 ^ (w - 1) : Nat) - 2 ^ (w - 1))))) ∧
    (1 < w → a.toNat < 2 ^ (w + 1) → a.getLsbD (w - 1) = false →
      exec (.sext w a b) s = .next (okState s (BitVec.ofInt 64 a.toNat)))

/-- R61: where SX's checks pass SEXT's RESULT is in `[-2^31, 2^32 - 1]`, with the rule's four cases. -/
def Obligations.SignExtendResultRange : Prop :=
  ∀ (w : Nat) (a b : Word) (s : State), 1 < w → w < 64 → a.toNat < 2 ^ (w + 1) →
    ∃ r : ResultWord, exec (.sext w a b) s = .next (okState s r) ∧
      -2 ^ 31 ≤ r.toInt ∧ r.toInt ≤ 2 ^ 32 - 1 ∧
      (a.getLsbD (w - 1) = true → -2 ^ (w - 1) ≤ r.toInt ∧ 2 ^ (w - 1) ≤ a.toNat ∧ (2 ^ (w - 1) : Nat) ≤ 2 ^ 31) ∧
      (a.getLsbD (w - 1) = false → r.toInt = a.toNat) ∧
      (33 ≤ w → r.toInt = a.toNat) ∧
      (w ≤ 31 → a.toNat < 2 ^ w → -2 ^ (w - 1) ≤ r.toInt ∧ r.toInt ≤ 2 ^ (w - 1) - 1)

/-- R64: BF.EXTS never reports FieldOutOfRange; up to `to_bit = 31` its result is the slice read as two's complement;
at `to_bit = 32` it is the slice unsigned, never negative. -/
def Obligations.SignedExtractReadsTwosComplement : Prop :=
  (∀ (f t : Nat) (a b : Word) (s : State), ∃ u : State, exec (.bfExts f t a b) s = .next u ∧ u.cause ≠ 4) ∧
  (∀ (f t : Nat) (a b : Word) (s : State), f < t → t ≤ 31 →
    ∃ r : ResultWord, exec (.bfExts f t a b) s = .next (okState s r) ∧
      r.toInt = (a.extractLsb' f (t - f + 1)).toInt ∧
      -2 ^ (t - f) ≤ r.toInt ∧ r.toInt ≤ 2 ^ (t - f) - 1) ∧
  (∀ (f : Nat) (a b : Word) (s : State), f < 32 →
    exec (.bfExts f 32 a b) s = .next (okState s (BitVec.ofNat 64 (a.toNat / 2 ^ f))))

/-- R63, whole: what an ISSUE with OP 0x3 does, for every word, operands and state, the faults in their order. -/
def Obligations.BfExtsCommand : Prop :=
  ∀ (c : Issue) (s : State) (rest : List HostOp), s.pending = .issue c :: rest → opOf c.cmd = 3 →
    step s = .next (
      if widthOf c.cmd ≠ 0 ∨ rsvOf c.cmd ≠ 0 then faultState { s with pending := rest } 1
      else if ¬ rangeValid (fromOf c.cmd) (toOf c.cmd) then faultState { s with pending := rest } 2
      else if fromOf c.cmd = toOf c.cmd then faultState { s with pending := rest } 3
      else okState { s with pending := rest } (BitVec.ofInt 64
        (sxValue ((maskValue (fromOf c.cmd) (toOf c.cmd) &&& c.a.toNat) / 2 ^ fromOf c.cmd)
          (toOf c.cmd - fromOf c.cmd + 1))))

/-- R62, whole: what an ISSUE with OP 0x5 does, for every word, operands and state. -/
def Obligations.SextCommand : Prop :=
  ∀ (c : Issue) (s : State) (rest : List HostOp), s.pending = .issue c :: rest → opOf c.cmd = 5 →
    step s = .next (
      if fromOf c.cmd ≠ 0 ∨ toOf c.cmd ≠ 0 ∨ rsvOf c.cmd ≠ 0 then faultState { s with pending := rest } 1
      else if widthOf c.cmd ≤ 1 then faultState { s with pending := rest } 3
      else if 2 ^ (widthOf c.cmd + 1) ≤ c.a.toNat then faultState { s with pending := rest } 4
      else okState { s with pending := rest } (BitVec.ofInt 64 (sxValue c.a.toNat (widthOf c.cmd))))

/-! ## Insertion (42_insert.md) -/

/-- R66: BF.INS completes on every valid range whatever A and B are; bit i of RESULT is A's, or B's bit `i - from_bit`
inside the field: the excess of B never reaches RESULT and A's bits in the field stay set. -/
def Obligations.InsertMergesWithoutChecking : Prop :=
  ∀ (f t : Nat) (a b : Word) (s : State), rangeValid f t →
    ∃ r : ResultWord, exec (.bfIns f t a b) s = .next (okState s r) ∧
      (∀ i : Nat, r.getLsbD i = (a.getLsbD i || (decide (f ≤ i ∧ i ≤ min t 31) && b.getLsbD (i - f)))) ∧
      (∀ b' : Word, (∀ j : Nat, j < min t 31 - f + 1 → b.getLsbD j = b'.getLsbD j) →
        exec (.bfIns f t a b') s = exec (.bfIns f t a b) s)

/-- R67, (a) to (d): A outside the mask is preserved, B is truncated by `m >> from_bit`, and BF.EXT of the RESULT gives
B back when B fits and A's field is zero. -/
def Obligations.InsertLaws : Prop :=
  ∀ (f t : Nat) (a b b' : Word) (s s' : State) (m : Word), rangeValid f t → m = nativeMask f t →
    ∃ r : Word, exec (.bfIns f t a b) s = .next (okState s (r.setWidth 64)) ∧
      r &&& ~~~m = a &&& ~~~m ∧
      r &&& m = (a &&& m) ||| ((b <<< f) &&& m) ∧
      exec (.bfIns f t a b) s = exec (.bfIns f t a (b &&& (m >>> f))) s ∧
      (t ≤ 31 → b.toNat < 2 ^ (t - f + 1) → a &&& m = 0 →
        exec (.bfExt f t r b') s' = .next (okState s' (b.setWidth 64))) ∧
      (t = 32 → b.toNat < 2 ^ (32 - f) → a &&& m = 0 →
        exec (.bfExt f t r b') s' = .next (okState s' (b.setWidth 64)))

/-- R65, whole: what an ISSUE with OP 0x4 does, for every word, operands and state: shift, mask, OR; and on every valid
range the reduction `mod 2^32` of the shifted B changes nothing. -/
def Obligations.BfInsCommand : Prop :=
  (∀ (c : Issue) (s : State) (rest : List HostOp), s.pending = .issue c :: rest → opOf c.cmd = 4 →
    step s = .next (
      if widthOf c.cmd ≠ 0 ∨ rsvOf c.cmd ≠ 0 then faultState { s with pending := rest } 1
      else if ¬ rangeValid (fromOf c.cmd) (toOf c.cmd) then faultState { s with pending := rest } 2
      else okState { s with pending := rest } (BitVec.ofNat 64
        (c.a.toNat ||| (c.b.toNat * 2 ^ fromOf c.cmd % 2 ^ 32 &&& maskValue (fromOf c.cmd) (toOf c.cmd)))))) ∧
  (∀ (f t : Nat) (a b : Word) (s : State), rangeValid f t →
    exec (.bfIns f t a b) s = .next (okState s (BitVec.ofNat 64 (a.toNat ||| (b.toNat * 2 ^ f &&& maskValue f t)))))

/-! ## Faults (60_exceptions.md) -/

/-- R68 and R70: every issued word reports the first fault that applies, by its code, and none where none applies. -/
def Obligations.FirstFaultInOrderIsReported : Prop :=
  ∀ (c : Issue) (s : State) (rest : List HostOp), s.pending = .issue c :: rest →
    ∃ t : State, step s = .next t ∧ t.cause.toNat = firstFault c ∧ (t.flt = true ↔ firstFault c ≠ 0)

/-- R69 and R71: a faulting command leaves RESULT 0, records its cause alone, and changes nothing besides STATUS. -/
def Obligations.FaultLeavesNoPartialResult : Prop :=
  ∀ (c : Issue) (s : State) (rest : List HostOp), s.pending = .issue c :: rest → firstFault c ≠ 0 →
    step s = .next { s with result := 0, status := BitVec.ofNat 32 (0x10 ||| (firstFault c <<< 1) ||| 1), pending := rest }

/-- R72: what is not a fault: any A for BF.EXT, BF.EXTS and BF.INS, any B and any target field for BF.INS, any value of
an ignored operand. -/
def Obligations.PermissiveOperandsDoNotFault : Prop :=
  ∀ (f t : Nat) (a b : Word) (s : State),
    (rangeValid f t → ∀ i ∈ [Instr.bfMask f t a b, .bfExt f t a b, .bfIns f t a b],
      ∃ u : State, exec i s = .next u ∧ u.flt = false ∧ u.cause = 0) ∧
    (rangeValid f t → f < t → ∃ u : State, exec (.bfExts f t a b) s = .next u ∧ u.flt = false ∧ u.cause = 0) ∧
    (∀ (w : Nat) (b' : Word), exec (.sext w a b) s = exec (.sext w a b') s)

/-- R74: a fault does not stop the unit: the next command, whatever it is, does what it would have done, but for STICKY,
which stays 1; one that completes without fault clears FLT and CAUSE. -/
def Obligations.FaultDoesNotStopTheUnit : Prop :=
  ∀ (bad c : Issue) (s : State) (rest : List HostOp), s.pending = .issue bad :: .issue c :: rest → firstFault bad ≠ 0 →
    ∃ t u : State, core.run 2 s = .next t ∧ step { s with pending := .issue c :: rest } = .next u ∧
      t.result = u.result ∧ t.flt = u.flt ∧ t.cause = u.cause ∧ t.sticky = true ∧ t.pending = rest ∧
      (firstFault c = 0 → t.flt = false ∧ t.cause = 0)

/-! ## The whole unit (00_scope.md) -/

/-- R10: the unit, computing on exact integers, is step for step a native 32-bit datapath with the fault order of R70,
for every word and operands the host can issue, from every state. -/
def Obligations.UnitIsTheNativeDatapath : Prop :=
  ∀ (c : Issue) (s : State) (rest : List HostOp), s.pending = .issue c :: rest →
    step s = .next { s with result := resultOf c, status := statusOf s.sticky c, pending := rest }
end

