-- ==== Sys2Proof/Laws/Arith.lean ====
section
/-! SUPPORT. One spec lemma per arithmetic function: the range check, the mask, the extracted field, the inserted word
and SX, as bits and as numbers. -/

namespace Sys2Proof.Machine

open Sys2Proof.Safety

/-- R53: a valid range passes. -/
theorem checkRange_valid {f t : Nat} (h : rangeValid f t) : checkRange f t = none := by
  simp [checkRange, h.1, h.2.1, h.2.2]

/-- R53: any other raises InvalidRange. -/
theorem checkRange_invalid {f t : Nat} (h : ¬ rangeValid f t) : checkRange f t = some .invalidRange := by
  by_cases hf : f < 32 <;> simp_all [checkRange]

theorem mask_eq_maskValue (f t : Nat) : mask f t = maskValue f t := by
  simp [mask, maskValue, mod32, fieldWidth, Nat.shiftLeft_eq]

theorem mask_lt (f t : Nat) : mask f t < 2 ^ 32 := Nat.mod_lt _ (by decide)

/-- The bits of the mask (R57). -/
theorem testBit_mask (f t i : Nat) :
    (mask f t).testBit i = (decide (i < 32) && (decide (f ≤ i) && decide (i - f < t - f + 1))) := by
  simp only [mask, mod32, fieldWidth, Nat.testBit_mod_two_pow, Nat.one_shiftLeft, Nat.testBit_shiftLeft,
    Nat.testBit_two_pow_sub_one, ge_iff_le]

/-- The bits of the extracted field. -/
theorem testBit_extractField (f t w i : Nat) :
    (extractField f t w).testBit i = ((mask f t).testBit (f + i) && w.testBit (f + i)) := by
  simp [extractField, Nat.testBit_shiftRight, Nat.testBit_and]

/-- The extracted field as a number (R58). -/
theorem extractField_eq_slice {f t : Nat} (h : rangeValid f t) (a : Word) :
    extractField f t a.toNat = sliceValue a f (min t 31) := by
  obtain ⟨hf, hft, ht⟩ := h
  apply Nat.eq_of_testBit_eq
  intro i
  rw [testBit_extractField, testBit_mask, sliceValue, Nat.testBit_mod_two_pow, Nat.testBit_div_two_pow]
  by_cases hb : a.toNat.testBit (f + i) = true
  · have : f + i < 32 := by
      by_contra hc
      have := Nat.testBit_lt_two_pow (x := a.toNat) (i := f + i)
        (lt_of_lt_of_le a.isLt (Nat.pow_le_pow_right (by decide) (by omega)))
      simp_all
    rw [Nat.add_comm] at hb
    rw [Nat.add_comm f i, hb, Bool.and_true, Bool.and_true, Bool.eq_iff_iff]
    simp only [Bool.and_eq_true, decide_eq_true_eq]
    omega
  · rw [Nat.add_comm] at hb
    simp [hb, Nat.add_comm f i]

/-- The bits of the word BF.INS gives. -/
theorem testBit_insertField (f t a b i : Nat) :
    (insertField f t a b).testBit i =
      (a.testBit i || (decide (i < 32) && (decide (f ≤ i) && b.testBit (i - f)) && (mask f t).testBit i)) := by
  simp only [insertField, mod32, Nat.testBit_or, Nat.testBit_and, Nat.testBit_mod_two_pow, Nat.testBit_shiftLeft,
    ge_iff_le]

theorem insertField_lt (f t : Nat) (a b : Word) : insertField f t a.toNat b.toNat < 2 ^ 32 :=
  Nat.or_lt_two_pow a.isLt (lt_of_le_of_lt Nat.and_le_right (mask_lt f t))

theorem extractField_le (f t w : Nat) : extractField f t w ≤ w :=
  le_trans (Nat.shiftRight_le _ _) Nat.and_le_right

/-- SX (R59): the two faults in their order, then the value by arithmetic. -/
theorem signExtend_eq (field width : Nat) :
    signExtend field width =
      if width ≤ 1 then .fault .invalidWidth
      else if 2 ^ (width + 1) ≤ field then .fault .fieldOutOfRange
      else .ok (sxValue field width) := by
  unfold signExtend
  by_cases hw : width ≤ 1
  · simp [hw]
  by_cases hf : 2 ^ (width + 1) ≤ field
  · simp [hw, hf]
  have key : (field &&& 2 ^ (width - 1) ≠ 0) ↔ field / 2 ^ (width - 1) % 2 = 1 := by
    rw [Nat.and_two_pow, Nat.testBit_eq_decide_div_mod_eq]
    by_cases h : field / 2 ^ (width - 1) % 2 = 1 <;> simp [h]
  simp only [not_lt, hw, hf, Nat.one_shiftLeft, if_false, key, sxValue, Nat.and_two_pow_sub_one_eq_mod,
    Nat.cast_pow, Nat.cast_ofNat]
  by_cases h : field / 2 ^ (width - 1) % 2 = 1 <;> simp [h]

end Sys2Proof.Machine
end

