-- ==== Sys2Proof/Laws/Decode.lean ====
section
/-! SUPPORT. The fields of a word as numbers, and the fields of an encoded word. -/

namespace Sys2Proof

open Sys2Proof.Safety

theorem opField_toNat (w : Word) : (opField w).toNat = opOf w := by simp [opField, opOf, BitVec.extractLsb'_toNat]

theorem fromField_toNat (w : Word) : (fromField w).toNat = fromOf w := by
  simp [fromField, fromOf, BitVec.extractLsb'_toNat, Nat.shiftRight_eq_div_pow]

theorem toField_toNat (w : Word) : (toField w).toNat = toOf w := by
  simp [toField, toOf, BitVec.extractLsb'_toNat, Nat.shiftRight_eq_div_pow]

theorem widthField_toNat (w : Word) : (widthField w).toNat = widthOf w := by
  simp [widthField, widthOf, BitVec.extractLsb'_toNat, Nat.shiftRight_eq_div_pow]

theorem rsvField_toNat (w : Word) : (rsvField w).toNat = rsvOf w := by
  have : w.toNat / 2 ^ 22 < 2 ^ 10 := by have := w.isLt; omega
  simp only [rsvField, rsvOf, BitVec.extractLsb'_toNat, Nat.shiftRight_eq_div_pow, Nat.mod_eq_of_lt this]

/-- A command word is its five fields (R40). -/
theorem word_eq_fields (w : Word) :
    w.toNat = opOf w + 2 ^ 4 * fromOf w + 2 ^ 10 * toOf w + 2 ^ 16 * widthOf w + 2 ^ 22 * rsvOf w := by
  unfold opOf fromOf toOf widthOf rsvOf; omega

/-- An OR of fields that do not overlap is a sum. -/
theorem or_shiftLeft_eq_add {x n : Nat} (h : x < 2 ^ n) (y : Nat) : x ||| (y <<< n) = x + 2 ^ n * y := by
  rw [Nat.or_comm, Nat.shiftLeft_eq, Nat.mul_comm, ← Nat.two_pow_add_eq_or_of_lt h y, Nat.add_comm]

theorem ofNat_fields {op f t w : Nat} (ho : op < 16) (hf : f < 64) (ht : t < 64) (hw : w < 64) :
    let c := BitVec.ofNat 32 (op + 2 ^ 4 * f + 2 ^ 10 * t + 2 ^ 16 * w)
    opOf c = op ∧ fromOf c = f ∧ toOf c = t ∧ widthOf c = w ∧ rsvOf c = 0 := by
  simp only [opOf, fromOf, toOf, widthOf, rsvOf, BitVec.toNat_ofNat]
  omega

/-- `decode` read off the fields as numbers (R45). -/
theorem decode_eq (c : Issue) :
    decode c =
      if opOf c.cmd = 0 ∨ 6 ≤ opOf c.cmd then .illegal .opcode
      else if rsvOf c.cmd ≠ 0 then .illegal .reserved
      else if opOf c.cmd = 5 then
        if fromOf c.cmd ≠ 0 ∨ toOf c.cmd ≠ 0 then .illegal .unusedRange
        else .command (.sext (widthOf c.cmd) c.a c.b)
      else if widthOf c.cmd ≠ 0 then .illegal .unusedWidth
      else if opOf c.cmd = 1 then .command (.bfMask (fromOf c.cmd) (toOf c.cmd) c.a c.b)
      else if opOf c.cmd = 2 then .command (.bfExt (fromOf c.cmd) (toOf c.cmd) c.a c.b)
      else if opOf c.cmd = 3 then .command (.bfExts (fromOf c.cmd) (toOf c.cmd) c.a c.b)
      else .command (.bfIns (fromOf c.cmd) (toOf c.cmd) c.a c.b) := by
  have e0 : opField c.cmd = 0 ↔ opOf c.cmd = 0 := by rw [← opField_toNat]; exact ⟨fun h => by rw [h]; rfl, fun h => BitVec.eq_of_toNat_eq h⟩
  have e1 : rsvField c.cmd = 0 ↔ rsvOf c.cmd = 0 := by rw [← rsvField_toNat]; exact ⟨fun h => by rw [h]; rfl, fun h => BitVec.eq_of_toNat_eq h⟩
  have e2 : fromField c.cmd = 0 ↔ fromOf c.cmd = 0 := by rw [← fromField_toNat]; exact ⟨fun h => by rw [h]; rfl, fun h => BitVec.eq_of_toNat_eq h⟩
  have e3 : toField c.cmd = 0 ↔ toOf c.cmd = 0 := by rw [← toField_toNat]; exact ⟨fun h => by rw [h]; rfl, fun h => BitVec.eq_of_toNat_eq h⟩
  have e4 : widthField c.cmd = 0 ↔ widthOf c.cmd = 0 := by rw [← widthField_toNat]; exact ⟨fun h => by rw [h]; rfl, fun h => BitVec.eq_of_toNat_eq h⟩
  simp only [decode, decodeRanged, decodeSext, ne_eq, e0, e1, e2, e3, e4, opField_toNat, fromField_toNat, toField_toNat,
    widthField_toNat]
  by_cases h : opOf c.cmd = 0 ∨ 6 ≤ opOf c.cmd
  · simp [h]
  · have : opOf c.cmd = 1 ∨ opOf c.cmd = 2 ∨ opOf c.cmd = 3 ∨ opOf c.cmd = 4 ∨ opOf c.cmd = 5 := by omega
    rcases this with h | h | h | h | h <;> simp [h]

/-! ### `decode`, one lemma per answer -/

section
variable {c : Issue}

theorem decode_illegal (h : illegalWord c.cmd) : ∃ why, decode c = .illegal why := by
  rw [decode_eq]
  split_ifs <;> first
    | exact ⟨_, rfl⟩
    | (simp only [illegalWord, strayBits] at h; omega)

theorem decode_bfMask (h : opOf c.cmd = 1) (hs : ¬ strayBits c.cmd) :
    decode c = .command (.bfMask (fromOf c.cmd) (toOf c.cmd) c.a c.b) := by
  simp_all [decode_eq, strayBits]

theorem decode_bfExt (h : opOf c.cmd = 2) (hs : ¬ strayBits c.cmd) :
    decode c = .command (.bfExt (fromOf c.cmd) (toOf c.cmd) c.a c.b) := by
  simp_all [decode_eq, strayBits]

theorem decode_bfExts (h : opOf c.cmd = 3) (hs : ¬ strayBits c.cmd) :
    decode c = .command (.bfExts (fromOf c.cmd) (toOf c.cmd) c.a c.b) := by
  simp_all [decode_eq, strayBits]

theorem decode_bfIns (h : opOf c.cmd = 4) (hs : ¬ strayBits c.cmd) :
    decode c = .command (.bfIns (fromOf c.cmd) (toOf c.cmd) c.a c.b) := by
  simp_all [decode_eq, strayBits]

theorem decode_sext (h : opOf c.cmd = 5) (hs : ¬ strayBits c.cmd) :
    decode c = .command (.sext (widthOf c.cmd) c.a c.b) := by
  simp_all [decode_eq, strayBits]

/-- A word is illegal, or it is one of the five commands without stray bits (R47). -/
theorem illegal_or_command (w : Word) :
    illegalWord w ∨ (¬ strayBits w ∧ (opOf w = 1 ∨ opOf w = 2 ∨ opOf w = 3 ∨ opOf w = 4 ∨ opOf w = 5)) := by
  by_cases h : illegalWord w
  · exact .inl h
  · refine .inr ⟨fun hs => h (.inr (.inr hs)), ?_⟩
    have h0 : ¬ opOf w = 0 := fun e => h (.inl e)
    have h6 : ¬ 6 ≤ opOf w := fun e => h (.inr (.inl e))
    omega

end

end Sys2Proof
end

