-- ==== Sys2Proof/Laws/State.lean ====
section
/-! SUPPORT. The named operations, one lemma per field per update, so that no proof unfolds a record update. -/

namespace Sys2Proof.Machine

variable (s : State) (r : ResultWord) (st : Word) (ops : List HostOp) (v : Delivered) (o : CommandOutcome)

@[simp] theorem State.setRegs_result : (s.setRegs r st).result = r := rfl
@[simp] theorem State.setRegs_status : (s.setRegs r st).status = hardwireStatus st := rfl
@[simp] theorem State.setRegs_pending : (s.setRegs r st).pending = s.pending := rfl
@[simp] theorem State.setRegs_delivered : (s.setRegs r st).delivered = s.delivered := rfl

@[simp] theorem State.withPending_result : (s.withPending ops).result = s.result := rfl
@[simp] theorem State.withPending_status : (s.withPending ops).status = s.status := rfl
@[simp] theorem State.withPending_pending : (s.withPending ops).pending = ops := rfl
@[simp] theorem State.withPending_delivered : (s.withPending ops).delivered = s.delivered := rfl

@[simp] theorem State.deliver_result : (s.deliver v).result = s.result := rfl
@[simp] theorem State.deliver_status : (s.deliver v).status = s.status := rfl
@[simp] theorem State.deliver_pending : (s.deliver v).pending = s.pending := rfl
@[simp] theorem State.deliver_delivered : (s.deliver v).delivered = v :: s.delivered := rfl

@[simp] theorem State.applyReset_result : s.applyReset.result = 0 := rfl
@[simp] theorem State.applyReset_status : s.applyReset.status = 0 := rfl
@[simp] theorem State.applyReset_pending : s.applyReset.pending = s.pending := rfl
@[simp] theorem State.applyReset_delivered : s.applyReset.delivered = s.delivered := rfl

@[simp] theorem State.losePower_result : (s.losePower r st).result = r := rfl
@[simp] theorem State.losePower_status : (s.losePower r st).status = hardwireStatus st := rfl
@[simp] theorem State.losePower_pending : (s.losePower r st).pending = .reset :: s.pending := rfl
@[simp] theorem State.losePower_delivered : (s.losePower r st).delivered = s.delivered := rfl

/-- A completion writes the two registers only (R24: "A command has no other effect"). -/
@[simp] theorem State.complete_pending : (s.complete o).pending = s.pending := by cases o <;> rfl
@[simp] theorem State.complete_delivered : (s.complete o).delivered = s.delivered := by cases o <;> rfl

end Sys2Proof.Machine
end

