-- ==== Sys2Proof/Laws/Flags.lean ====
section
/-! SUPPORT. STATUS: what each field reads as after each update, and the completion of R24 as the two updates that the
statements name. -/

namespace Sys2Proof.Machine

open Sys2Proof.Safety

/-- R20: nothing but FLT, CAUSE and STICKY survives, and those do. -/
theorem hardwireStatus_statusWord (f : Bool) (c : BitVec 3) (k : Bool) :
    hardwireStatus (statusWord f c k) = statusWord f c k := by
  revert f c k; decide

theorem statusAfterOk_eq (old : Word) : hardwireStatus (statusAfterOk old) = statusOk (old.getLsbD 4) := by
  unfold statusAfterOk
  cases old.getLsbD 4 <;> decide

theorem statusAfterFault_eq (c : Cause) :
    hardwireStatus (statusAfterFault c) = statusFault c.code.toNat := by
  cases c <;> decide

/-- R24, `Ok(r)`. -/
theorem State.complete_ok (r : Int) (s : State) : s.complete (.ok r) = okState s (sext64 r) := by
  simp only [State.complete, State.setRegs, okState, statusAfterOk_eq, State.sticky]

/-- R24, `Fault(c)`. -/
theorem State.complete_fault (c : Cause) (s : State) : s.complete (.fault c) = faultState s c.code.toNat := by
  simp only [State.complete, State.setRegs, faultState, statusAfterFault_eq]

theorem Cause.code_pos (c : Cause) : 1 ≤ c.code.toNat := by cases c <;> decide

theorem Cause.code_le (c : Cause) : c.code.toNat ≤ 4 := by cases c <;> decide

theorem statusOk_fields (k : Bool) :
    (statusOk k).getLsbD 0 = false ∧ (statusOk k).extractLsb' 1 3 = 0 ∧ (statusOk k).getLsbD 4 = k ∧
    (statusOk k).extractLsb' 5 27 = 0 := by
  cases k <;> decide

section
variable (s : State) (r : ResultWord)

@[simp] theorem okState_result : (okState s r).result = r := rfl
@[simp] theorem okState_pending : (okState s r).pending = s.pending := rfl
@[simp] theorem okState_delivered : (okState s r).delivered = s.delivered := rfl
@[simp] theorem faultState_result (n : Nat) : (faultState s n).result = 0 := rfl
@[simp] theorem faultState_pending (n : Nat) : (faultState s n).pending = s.pending := rfl
@[simp] theorem faultState_delivered (n : Nat) : (faultState s n).delivered = s.delivered := rfl

theorem okState_flt : (okState s r).flt = false := (statusOk_fields s.sticky).1
theorem okState_cause : (okState s r).cause = 0 := (statusOk_fields s.sticky).2.1
theorem okState_sticky : (okState s r).sticky = s.sticky := (statusOk_fields s.sticky).2.2.1
theorem okState_reserved : (okState s r).reserved = 0 := (statusOk_fields s.sticky).2.2.2

/-- The four codes of R68, in the fields of STATUS. -/
theorem faultState_fields (c : Cause) :
    (faultState s c.code.toNat).flt = true ∧ (faultState s c.code.toNat).cause = c.code ∧
    (faultState s c.code.toNat).sticky = true ∧ (faultState s c.code.toNat).reserved = 0 := by
  simp only [faultState, State.flt, State.cause, State.sticky, State.reserved]
  cases c <;> decide

end

end Sys2Proof.Machine
end

