-- ==== Sys2Proof/Laws/PerInstr.lean ====
section
/-! SUPPORT. A fact of every instruction as syntax: the command word of a well-formed instruction holds its fields at
their bits, zero elsewhere (R40, R42, R43, R48). One lemma per constructor. -/

namespace Sys2Proof.Laws.EncodeFields

open Sys2Proof.Safety

/-- OP, FROM, TO and WIDTH of an instruction (R40, R42). -/
def fields : Instr → Nat × Nat × Nat × Nat
  | .bfMask f t _ _ => (1, f, t, 0)
  | .bfExt f t _ _ => (2, f, t, 0)
  | .bfExts f t _ _ => (3, f, t, 0)
  | .bfIns f t _ _ => (4, f, t, 0)
  | .sext w _ _ => (5, 0, 0, w)

/-- A well-formed instruction's word has exactly its fields, and RSV 0. -/
def Statement (i : Instr) : Prop :=
  i.wellFormed = true →
    (opOf (encodeWord i), fromOf (encodeWord i), toOf (encodeWord i), widthOf (encodeWord i)) = fields i ∧
    rsvOf (encodeWord i) = 0

theorem enc_eq_add {op f t w : Nat} (ho : op < 16) (hf : f < 64) (ht : t < 64) :
    enc op f t w = op + 2 ^ 4 * f + 2 ^ 10 * t + 2 ^ 16 * w := by
  have h1 := or_shiftLeft_eq_add (n := 4) (x := op) (by omega) f
  have h2 := or_shiftLeft_eq_add (n := 10) (x := op + 2 ^ 4 * f) (by omega) t
  rw [enc, h1, h2, or_shiftLeft_eq_add (by omega)]

theorem enc_fields {op f t w : Nat} (ho : op < 16) (hf : f < 64) (ht : t < 64) (hw : w < 64) :
    (opOf (BitVec.ofNat 32 (enc op f t w)), fromOf (BitVec.ofNat 32 (enc op f t w)),
      toOf (BitVec.ofNat 32 (enc op f t w)), widthOf (BitVec.ofNat 32 (enc op f t w))) = (op, f, t, w) ∧
    rsvOf (BitVec.ofNat 32 (enc op f t w)) = 0 := by
  rw [enc_eq_add ho hf ht]
  obtain ⟨h1, h2, h3, h4, h5⟩ := ofNat_fields ho hf ht hw
  simp only [h1, h2, h3, h4, h5, and_self]

theorem ranged_bounds {f t : Nat} (h : (idxFits f && idxFits t) = true) : f < 64 ∧ t < 64 := by
  simpa only [idxFits, Config.idxBits, Bool.and_eq_true, decide_eq_true_eq, Nat.reducePow] using h

theorem widthFits_lt {w : Nat} (h : widthFits w = true) : w < 64 := by
  simpa only [widthFits, Config.widthBits, decide_eq_true_eq, Nat.reducePow] using h

theorem bfMask (f t : Nat) (a b : Word) : Statement (.bfMask f t a b) := fun h =>
  enc_fields (by decide) (ranged_bounds h).1 (ranged_bounds h).2 (by decide)

theorem bfExt (f t : Nat) (a b : Word) : Statement (.bfExt f t a b) := fun h =>
  enc_fields (by decide) (ranged_bounds h).1 (ranged_bounds h).2 (by decide)

theorem bfExts (f t : Nat) (a b : Word) : Statement (.bfExts f t a b) := fun h =>
  enc_fields (by decide) (ranged_bounds h).1 (ranged_bounds h).2 (by decide)

theorem bfIns (f t : Nat) (a b : Word) : Statement (.bfIns f t a b) := fun h =>
  enc_fields (by decide) (ranged_bounds h).1 (ranged_bounds h).2 (by decide)

theorem sext (w : Nat) (a b : Word) : Statement (.sext w a b) := fun h =>
  enc_fields (by decide) (by decide) (by decide) (widthFits_lt h)

end Sys2Proof.Laws.EncodeFields
end

