-- ==== Sys2Proof/Laws/Step.lean ====
section
/-! SUPPORT. What a step can do, said once: exec completes with the instruction's outcome, and step is one of seven
cases. -/

namespace Sys2Proof.Machine

open Sys2Proof.Safety

/-- The spec's `exec(CMD, A, B)` as a function of the command alone (R9). -/
def outcome : Instr → CommandOutcome
  | .bfMask f t _ _ => bfMaskOutcome f t
  | .bfExt f t a _ => bfExtOutcome f t a
  | .bfExts f t a _ => bfExtsOutcome f t a
  | .bfIns f t a b => bfInsOutcome f t a b
  | .sext w a _ => sextOutcome w a

/-- The outcome of an issued command, decoded or not (R44). -/
def issueOutcome (c : Issue) : CommandOutcome :=
  match decode c with
  | .command i => outcome i
  | .illegal _ => .fault .illegalCommand

/-- exec is the completion of the instruction's outcome. -/
theorem exec_eq (i : Instr) (s : State) : exec i s = .next (s.complete (outcome i)) := by
  cases i <;> rfl

theorem performIssue_eq (c : Issue) (s : State) : performIssue c s = .next (s.complete (issueOutcome c)) := by
  unfold performIssue issueOutcome
  cases decode c with
  | command i => exact exec_eq i s
  | illegal why => rfl

theorem step_nil {s : State} (h : s.pending = []) : step s = .next s := by simp [step, h]

theorem step_cons {s : State} {op : HostOp} {rest : List HostOp} (h : s.pending = op :: rest) :
    step s = performHostOp op (s.withPending rest) := by simp [step, h]

theorem step_issue {s : State} {c : Issue} {rest : List HostOp} (h : s.pending = .issue c :: rest) :
    step s = .next ((s.withPending rest).complete (issueOutcome c)) := by
  rw [step_cons h]; exact performIssue_eq c _

/-- What performing an operation answers: always a next state, and which. -/
def afterHostOp (op : HostOp) (s : State) : State :=
  match op with
  | .issue c => s.complete (issueOutcome c)
  | .readResult => s.deliver (.result s.readResult)
  | .readStatus => s.deliver (.status s.readStatus)
  | .reset => s.applyReset
  | .issueWithReset c .resetFirst => s.applyReset.complete (issueOutcome c)
  | .issueWithReset c .commandFirst => (s.complete (issueOutcome c)).applyReset
  | .powerLoss r st => s.losePower r st

theorem performHostOp_eq (op : HostOp) (s : State) : performHostOp op s = .next (afterHostOp op s) := by
  cases op with
  | issue c => exact performIssue_eq c s
  | issueWithReset c first =>
    cases first <;> simp [performHostOp, performIssueWithReset, performIssue_eq, andThenReset, afterHostOp]
  | _ => rfl

/-- Everything a step can do: nothing, with nothing pending, or the operation at the front. -/
theorem step_cases {s t : State} (h : step s = .next t) :
    (s.pending = [] ∧ t = s) ∨
      ∃ op rest, s.pending = op :: rest ∧ t = afterHostOp op (s.withPending rest) := by
  cases hp : s.pending with
  | nil => rw [step_nil hp] at h; cases h; exact .inl ⟨rfl, rfl⟩
  | cons op rest =>
    rw [step_cons hp, performHostOp_eq] at h
    cases h; exact .inr ⟨op, rest, rfl, rfl⟩

/-! ### The outcome of an issued command, one lemma per answer of `decode` -/

section
variable {c : Issue}

theorem issueOutcome_illegal (h : illegalWord c.cmd) : issueOutcome c = .fault .illegalCommand := by
  obtain ⟨why, hw⟩ := decode_illegal h
  simp only [issueOutcome, hw]

theorem issueOutcome_bfMask (h : opOf c.cmd = 1) (hs : ¬ strayBits c.cmd) :
    issueOutcome c = bfMaskOutcome (fromOf c.cmd) (toOf c.cmd) := by
  simp only [issueOutcome, decode_bfMask h hs, outcome]

theorem issueOutcome_bfExt (h : opOf c.cmd = 2) (hs : ¬ strayBits c.cmd) :
    issueOutcome c = bfExtOutcome (fromOf c.cmd) (toOf c.cmd) c.a := by
  simp only [issueOutcome, decode_bfExt h hs, outcome]

theorem issueOutcome_bfExts (h : opOf c.cmd = 3) (hs : ¬ strayBits c.cmd) :
    issueOutcome c = bfExtsOutcome (fromOf c.cmd) (toOf c.cmd) c.a := by
  simp only [issueOutcome, decode_bfExts h hs, outcome]

theorem issueOutcome_bfIns (h : opOf c.cmd = 4) (hs : ¬ strayBits c.cmd) :
    issueOutcome c = bfInsOutcome (fromOf c.cmd) (toOf c.cmd) c.a c.b := by
  simp only [issueOutcome, decode_bfIns h hs, outcome]

theorem issueOutcome_sext (h : opOf c.cmd = 5) (hs : ¬ strayBits c.cmd) :
    issueOutcome c = sextOutcome (widthOf c.cmd) c.a := by
  simp only [issueOutcome, decode_sext h hs, outcome]

end

/-! ### The range-checked commands: InvalidRange, or the computation on a valid range (R53) -/

section
variable {f t : Nat} (a b : Word)

theorem bfMaskOutcome_valid (h : rangeValid f t) : bfMaskOutcome f t = .ok (mask f t) := by
  rw [bfMaskOutcome, checkRange_valid h]

theorem bfMaskOutcome_invalid (h : ¬ rangeValid f t) : bfMaskOutcome f t = .fault .invalidRange := by
  rw [bfMaskOutcome, checkRange_invalid h]

theorem bfExtOutcome_valid (h : rangeValid f t) : bfExtOutcome f t a = .ok (extractField f t a.toNat) := by
  rw [bfExtOutcome, checkRange_valid h]

theorem bfExtOutcome_invalid (h : ¬ rangeValid f t) : bfExtOutcome f t a = .fault .invalidRange := by
  rw [bfExtOutcome, checkRange_invalid h]

theorem bfExtsOutcome_valid (h : rangeValid f t) :
    bfExtsOutcome f t a = signExtend (extractField f t a.toNat) (t - f + 1) := by
  rw [bfExtsOutcome, checkRange_valid h]; rfl

theorem bfExtsOutcome_invalid (h : ¬ rangeValid f t) : bfExtsOutcome f t a = .fault .invalidRange := by
  rw [bfExtsOutcome, checkRange_invalid h]

/-- FieldOutOfRange cannot occur (R64): on a valid range BF.EXTS fails only for width 1. -/
theorem bfExtsOutcome_valid_eq (h : rangeValid f t) :
    bfExtsOutcome f t a =
      if f = t then .fault .invalidWidth else .ok (sxValue (extractField f t a.toNat) (t - f + 1)) := by
  have hx : ¬ 2 ^ (t - f + 1 + 1) ≤ extractField f t a.toNat := by
    rw [extractField_eq_slice h, sliceValue, not_le]
    refine lt_of_lt_of_le (Nat.mod_lt _ (Nat.two_pow_pos _)) (Nat.pow_le_pow_right (by decide) ?_)
    omega
  have hft := h.2.1
  rw [bfExtsOutcome_valid a h, signExtend_eq, if_neg hx]
  by_cases he : f = t
  · rw [if_pos (by omega), if_pos he]
  · rw [if_neg (by omega), if_neg he]

theorem bfInsOutcome_valid (h : rangeValid f t) :
    bfInsOutcome f t a b = .ok (insertField f t a.toNat b.toNat) := by
  rw [bfInsOutcome, checkRange_valid h]

theorem bfInsOutcome_invalid (h : ¬ rangeValid f t) : bfInsOutcome f t a b = .fault .invalidRange := by
  rw [bfInsOutcome, checkRange_invalid h]

end

end Sys2Proof.Machine
end

