-- ==== Sys2Proof/Tests/Slice0.lean ====
section
/-! SUPPORT. The model's own tests: the well-formedness smoke tests, words written out from 30_encoding.md, one step per
test with its expected registers from spec/95_test_vectors.md (the row's number stands in the comment), and a witness for
the hypotheses of each statement. -/

namespace Sys2Proof.Tests

open Sys2Proof.Machine Sys2Proof.Safety

/-- A unit to which the host is about to issue one command. -/
def issuing (cmd a b : Word) : State := { State.reset with pending := [.issue ⟨cmd, a, b⟩] }

/-- The same after an earlier fault: STICKY is set. -/
def issuingSticky (cmd a b : Word) : State := { issuing cmd a b with status := 0x10 }

/-- RESULT and STATUS after one step. -/
def regsAfter (s : State) : Option (ResultWord × Word) :=
  match step s with
  | .next t => some (t.result, t.status)
  | .fault _ => none
  | .refused _ => none

/-! ### Well-formedness: each check refuses an ill-formed term (R51) -/

theorem smoke_bfMask_from : (Instr.bfMask 64 0 0 0).wellFormed = false := by decide
theorem smoke_bfMask_to : (Instr.bfMask 0 64 0 0).wellFormed = false := by decide
theorem smoke_bfExt_from : (Instr.bfExt 64 0 0 0).wellFormed = false := by decide
theorem smoke_bfExt_to : (Instr.bfExt 0 64 0 0).wellFormed = false := by decide
theorem smoke_bfExts_from : (Instr.bfExts 64 0 0 0).wellFormed = false := by decide
theorem smoke_bfExts_to : (Instr.bfExts 0 64 0 0).wellFormed = false := by decide
theorem smoke_bfIns_from : (Instr.bfIns 64 0 0 0).wellFormed = false := by decide
theorem smoke_bfIns_to : (Instr.bfIns 0 64 0 0).wellFormed = false := by decide
theorem smoke_sext_width : (Instr.sext 64 0 0).wellFormed = false := by decide

/-! ### Words: RSV, WIDTH, TO, FROM, OP written out from R40 and R42 -/

theorem test_decode_bfMask :
    decode ⟨0b0000000000_000000_100000_011111_0001#32, 1, 2⟩ = .command (.bfMask 31 32 1 2) := by decide
theorem test_decode_bfExt :
    decode ⟨0b0000000000_000000_001111_001000_0010#32, 1, 2⟩ = .command (.bfExt 8 15 1 2) := by decide
theorem test_decode_bfExts :
    decode ⟨0b0000000000_000000_101000_111111_0011#32, 1, 2⟩ = .command (.bfExts 63 40 1 2) := by decide
theorem test_decode_bfIns :
    decode ⟨0b0000000000_000000_000101_000011_0100#32, 1, 2⟩ = .command (.bfIns 3 5 1 2) := by decide
theorem test_decode_sext :
    decode ⟨0b0000000000_111111_000000_000000_0101#32, 1, 2⟩ = .command (.sext 63 1 2) := by decide
/-- D1, D3. -/
theorem test_decode_illegal_opcode :
    decode ⟨0x00000000, 0, 0⟩ = .illegal .opcode ∧ decode ⟨0x0000000F, 0, 0⟩ = .illegal .opcode := by decide
/-- D4. -/
theorem test_decode_reserved : decode ⟨0x80000002, 0, 0⟩ = .illegal .reserved := by decide
/-- D5. -/
theorem test_decode_unused_width : decode ⟨0x00011431, 0, 0⟩ = .illegal .unusedWidth := by decide
/-- D6, SX24. -/
theorem test_decode_unused_range :
    decode ⟨0x00030405, 0, 0⟩ = .illegal .unusedRange ∧ decode ⟨0x00030015, 0, 0⟩ = .illegal .unusedRange := by decide
/-- The table's own examples of R48. -/
theorem test_encode_words :
    encodeWord (.bfIns 3 5 0 0) = 0x00001434 ∧ encodeWord (.bfExts 0 7 0 0) = 0x00001C03 ∧
    encodeWord (.sext 3 0 0) = 0x00030005 := by decide
theorem test_table_word_operands :
    decodeTableWord 32 0x00030005 = some (.sext 3 0 0) ∧
    decodeTableWord 96 (0x00001434 + 6 * 2 ^ 32 + 5 * 2 ^ 64) = some (.bfIns 3 5 6 5) ∧
    decodeTableWord 32 0x00000006 = none := by decide
theorem test_fetch_word_runs :
    step (State.reset.withFetchWord 32 0x00007C01) = .next ⟨0xFFFFFFFF, 0, [], []⟩ := rfl

/-! ### Commands, at most two each -/

/-- M12: the loose bound. -/
theorem test_mask_loose : regsAfter (issuing 0x000081F1 0 0) = some (0x80000000, 0) := by decide
/-- M13. -/
theorem test_mask_invalid_range : regsAfter (issuing 0x00008201 0 0) = some (0, 0x15) := by decide
/-- E4. -/
theorem test_ext : regsAfter (issuing 0x00007D02 0x12345678 0) = some (0x1234, 0) := by decide
/-- E6, with STICKY set before. -/
theorem test_ext_keeps_sticky : regsAfter (issuingSticky 0x00008002 0xDEADBEEF 0) = some (0xDEADBEEF, 0x10) := by decide
/-- X6. -/
theorem test_exts_negative : regsAfter (issuing 0x00003C83 0x1234A578 0) = some (0xFFFFFFFFFFFFFFA5, 0) := by decide
/-- X19: the range is checked before the width. -/
theorem test_exts_range_first : regsAfter (issuing 0x0000A283 0 0) = some (0, 0x15) := by decide
/-- S1, I1: shift first, then mask. -/
theorem test_ins : regsAfter (issuing 0x00001434 6 5) = some (46, 0) := by decide
/-- I11: the shift wraps at 32 bits. -/
theorem test_ins_wraps : regsAfter (issuing 0x000081F4 0 3) = some (0x80000000, 0) := by decide
/-- SX5: the slack bit is dropped. -/
theorem test_sext_slack : regsAfter (issuing 0x00030005 12 0) = some (0xFFFFFFFFFFFFFFFC, 0) := by decide
/-- SX14: the width is checked before the field. -/
theorem test_sext_width_first : regsAfter (issuing 0x00010005 16 0) = some (0, 0x17) := by decide
/-- SX7. -/
theorem test_fault_field : regsAfter (issuing 0x00030005 16 0) = some (0, 0x19) := by decide
/-- D2. -/
theorem test_illegal_command : regsAfter (issuing 0x00000006 1 2) = some (0, 0x13) := by decide

/-! ### Host operations -/

/-- Program 4: reset clears the record. -/
theorem test_reset_clears_sticky : regsAfter ⟨0xFFFFFFFF, 0x10, [.reset], []⟩ = some (0, 0) := by decide
theorem test_reads_deliver :
    core.run 2 ⟨5, 0x19, [.readResult, .readStatus], []⟩ = .next ⟨5, 0x19, [], [.status 0x19, .result 5]⟩ := rfl
theorem test_coincidence :
    regsAfter ⟨7, 0x10, [.issueWithReset ⟨0x00000006, 0, 0⟩ .resetFirst], []⟩ = some (0, 0x13) ∧
    regsAfter ⟨7, 0x10, [.issueWithReset ⟨0x00000006, 0, 0⟩ .commandFirst], []⟩ = some (0, 0) := by decide
theorem test_power_loss : regsAfter ⟨7, 0, [.powerLoss 9 0xFFFFFFFF], []⟩ = some (9, 0x1F) := by decide

/-! ### Assembler (R49, R51, R52) -/

/-- S1 as R49 writes it: the value before the word. -/
theorem test_assemble_ins : Asm.assemble (.bfIns 3 5 5 6) = some ⟨0x00001434, 6, 5⟩ := by decide
theorem test_assemble_rejects :
    Asm.assemble (.bfMask 64 0) = none ∧ Asm.assemble (.bfMask (-1) 0) = none ∧
    Asm.assemble (.bfExt 0 3 4294967296) = none := by decide
theorem test_assemble_text :
    Asm.assembleText ['S', 'E', 'X', 'T', ' ', ' ', '3', ',', ' ', '0', 'x', '1', 'F'] = some ⟨0x00030005, 31, 0⟩ := by
  decide
theorem test_disassemble_text :
    (Asm.disassemble 0x00001434).text = ['B', 'F', '.', 'I', 'N', 'S', ' ', '3', ',', ' ', '5'] ∧
    (Asm.disassemble 0x0001143A).text =
      ['.', 'w', 'o', 'r', 'd', ' ', '0', 'x', '0', '0', '0', '1', '1', '4', '3', 'A'] := by decide

/-! ### Witnesses: the hypotheses of each statement, met together, each clause at the edge of its range -/

/-- Every statement about an issued command or an operation at the front: any state with one pending. -/
theorem witness_ResetLeavesBothRegistersZero :
    (⟨9, 0x19, [.reset, .readResult], []⟩ : State).pending = .reset :: [.readResult] := rfl
theorem witness_EveryStepKeepsTheRegistersLegal : Inv ⟨0, 0x15, [.readStatus], []⟩ ∧ Inv ⟨7, 0x1E, [.reset], []⟩ :=
  ⟨.inl ⟨by decide, by decide, by decide, by decide, by decide, by decide, by decide⟩, .inr rfl⟩
theorem witness_CompletionIsOneOfTheTwoUpdates :
    ((issuing 0x00030005 15 0).pending = .issue ⟨0x00030005, 15, 0⟩ :: [] ∧ firstFault ⟨0x00030005, 15, 0⟩ = 0) ∧
    (issuing 0x00030005 16 0).pending = .issue ⟨0x00030005, 16, 0⟩ :: [] ∧ firstFault ⟨0x00030005, 16, 0⟩ ≠ 0 := by
  decide
theorem witness_OutcomeDependsOnlyOnTheCommand :
    (issuing 0x00030005 7 0).pending = .issue ⟨0x00030005, 7, 0⟩ :: [] ∧
    (issuingSticky 0x00030005 7 0).pending = .issue ⟨0x00030005, 7, 0⟩ :: [] := ⟨rfl, rfl⟩
theorem witness_StickyIsSetByFaultsAndClearedByReset :
    (issuing 0x00000C51 0 0).pending = .issue ⟨0x00000C51, 0, 0⟩ :: [] ∧ firstFault ⟨0x00000C51, 0, 0⟩ ≠ 0 ∧
    firstFault ⟨0x00001431, 0, 0⟩ = 0 ∧
    (∀ r st, (⟨0, 0x10, [.reset], []⟩ : State).pending.head? ≠ some (.powerLoss r st)) ∧
    (⟨0, 0x10, [.reset], []⟩ : State).sticky = true := ⟨rfl, by decide, by decide, by simp, by decide⟩
theorem witness_CoincidenceIsSequential :
    (⟨0, 0, [.issueWithReset ⟨6, 0, 0⟩ .resetFirst], []⟩ : State).pending = .issueWithReset ⟨6, 0, 0⟩ .resetFirst :: [] ∧
    (⟨0, 0, [.issueWithReset ⟨6, 0, 0⟩ .commandFirst], []⟩ : State).pending = .issueWithReset ⟨6, 0, 0⟩ .commandFirst :: [] :=
  ⟨rfl, rfl⟩
theorem witness_PowerLossIsFollowedByReset :
    (⟨0, 0, [.powerLoss 1 0xFFFFFFFF, .readStatus], []⟩ : State).pending = .powerLoss 1 0xFFFFFFFF :: [.readStatus] := rfl
theorem witness_IdleUnitHoldsItsState : (⟨5, 0x10, [], []⟩ : State).pending = [] := rfl
theorem witness_ReadsHaveNoEffectAndRepeat :
    (⟨5, 0, [.readResult, .readStatus, .readResult, .readStatus], []⟩ : State).pending =
      .readResult :: .readStatus :: .readResult :: .readStatus :: [] ∧
    (⟨5, 0, [.readStatus], []⟩ : State).pending = .readStatus :: [] ∧
    (issuing 6 0 0).pending = .issue ⟨6, 0, 0⟩ :: [] := ⟨rfl, rfl, rfl⟩
theorem witness_StepRunsTheDecodedCommand :
    (issuing 0x00001431 1 2).pending = .issue ⟨0x00001431, 1, 2⟩ :: [] ∧
    decode ⟨0x00001431, 1, 2⟩ = .command (.bfMask 3 5 1 2) ∧ decode ⟨0x00000000, 1, 2⟩ = .illegal .opcode := by decide
theorem witness_ExecWritesOnlyResultAndStatus :
    exec (.bfMask 0 0 0 0) State.reset = .next ⟨1, 0, [], []⟩ ∧
    exec (.sext 1 0 0) State.reset = .next ⟨0, 0x17, [], []⟩ := ⟨rfl, rfl⟩
theorem witness_TransactionsReturnTheirOwnResults :
    (⟨0, 0, transaction ⟨0, 0, 0⟩ ++ transaction ⟨0x00001431, 0, 0⟩ ++ [.reset], []⟩ : State).pending =
      [⟨0, 0, 0⟩, ⟨0x00001431, 0, 0⟩].flatMap transaction ++ [.reset] := rfl
theorem witness_DecodeOfEncodeIsTheCommand :
    (Instr.bfIns 63 63 0 0).wellFormed = true ∧ (Instr.sext 63 0 0).wellFormed = true := by decide
theorem witness_DecodedFieldsAreTheWordsFields :
    decode ⟨0x0000FFF1, 0, 0⟩ = .command (.bfMask 63 63 0 0) ∧ decode ⟨0x003F0005, 0, 0⟩ = .command (.sext 63 0 0) := by decide
theorem witness_EveryLegalWordHasOneSpelling :
    (opOf 0x00011431 = 1 ∧ strayBits 0x00011431) ∧ (opOf 0x00030405 = 5 ∧ strayBits 0x00030405) ∧
    (opOf 0x80000002 = 2 ∧ strayBits 0x80000002) ∧ decode ⟨0x00001434, 0, 0⟩ = .command (.bfIns 3 5 0 0) := by decide
theorem witness_IllegalOpcodesAreRejected :
    (issuing 0 1 2).pending = .issue ⟨0, 1, 2⟩ :: [] ∧ opOf 0 = 0 ∧ 6 ≤ opOf 6 ∧ 6 ≤ opOf 0xF := by decide
theorem witness_DecodeRefusesOnlySpellings :
    illegalWord 0x00000006 ∧ ¬ rangeValid 32 32 ∧ ¬ rangeValid 5 3 ∧ ¬ rangeValid 0 33 ∧ ¬ rangeValid 63 63 ∧
    Instr.bfMask 5 3 0 0 ∈ [Instr.bfMask 5 3 0 0, .bfExt 5 3 0 0, .bfExts 5 3 0 0, .bfIns 5 3 0 0] := by decide
theorem witness_IgnoredOperandsNeverMatter :
    (issuing 0x00001431 1 2).pending = .issue ⟨0x00001431, 1, 2⟩ :: [] ∧ opOf 0x00001431 ≠ 4 ∧ opOf 0x00001431 = 1 ∧
    illegalWord 0x00000000 ∧
    issuing 0x00001431 3 4 = { issuing 0x00001431 1 2 with pending := [.issue ⟨0x00001431, 3, 4⟩] } := by decide
theorem witness_EncodingPlacesTheFields : (15 : Nat) < 16 ∧ (63 : Nat) < 64 := by decide
theorem witness_AssemblerRejectsOnlyTheUnencodable :
    ((0 : Int) ≤ 0 ∧ (0 : Int) ≤ 63) ∧ ((0 : Int) ≤ 63 ∧ (63 : Int) ≤ 63) ∧ (0 : Int) ≤ 4294967295 ∧
    (4294967295 : Int) ≤ 2 ^ 32 - 1 ∧ ¬ ((0 : Int) ≤ 64 ∧ (64 : Int) ≤ 63) ∧ ¬ ((0 : Int) ≤ -1 ∧ (-1 : Int) ≤ 63) := by decide
theorem witness_DisassemblyInvertsEncoding : ¬ illegalWord 0x00030005 ∧ illegalWord 0x00000000 := by decide
theorem witness_RangeCheckIsTheSourcesLooseCheck :
    Instr.bfExts 31 32 0 0 ∈ [.bfMask 31 32 0 0, .bfExt 31 32 0 0, .bfExts 31 32 0 0, .bfIns 31 32 0 0] := by decide
/-- MaskIsTheClosedForm, MaskBitsRunFromFromToTo, ExtractIsTheBitSlice, InsertMergesWithoutChecking. -/
theorem witness_rangeValid : rangeValid 0 0 ∧ rangeValid 31 31 ∧ rangeValid 0 32 ∧ rangeValid 31 32 := by decide
theorem witness_BfMaskCommand : (issuing 0x00001431 0 0).pending = .issue ⟨0x00001431, 0, 0⟩ :: [] ∧ opOf 0x00001431 = 1 := by
  decide
theorem witness_BfExtCommand : (issuing 0x00000C02 0 0).pending = .issue ⟨0x00000C02, 0, 0⟩ :: [] ∧ opOf 0x00000C02 = 2 := by
  decide
theorem witness_BfExtsCommand : (issuing 0x00001C03 0 0).pending = .issue ⟨0x00001C03, 0, 0⟩ :: [] ∧ opOf 0x00001C03 = 3 := by
  decide
theorem witness_BfInsCommand :
    ((issuing 0x00001434 0 0).pending = .issue ⟨0x00001434, 0, 0⟩ :: [] ∧ opOf 0x00001434 = 4) ∧ rangeValid 31 32 := by
  decide
theorem witness_SextCommand : (issuing 0x00030005 0 0).pending = .issue ⟨0x00030005, 0, 0⟩ :: [] ∧ opOf 0x00030005 = 5 := by
  decide
theorem witness_SignExtendFollowsTheAlgorithm :
    (1 : Nat) ≤ 1 ∧ 2 ^ (2 + 1) ≤ (8 : Word).toNat ∧
    ((7 : Word).toNat < 2 ^ (2 + 1) ∧ (7 : Word).getLsbD (2 - 1) = true) ∧
    ((11 : Word).toNat < 2 ^ (3 + 1) ∧ (11 : Word).getLsbD (3 - 1) = false) := by decide
theorem witness_SignExtendResultRange :
    ((0x80000000 : Word).toNat < 2 ^ (32 + 1) ∧ (0x80000000 : Word).getLsbD (32 - 1) = true) ∧
    ((0xFFFFFFFF : Word).toNat < 2 ^ (63 + 1) ∧ (0xFFFFFFFF : Word).getLsbD (63 - 1) = false) ∧
    (0x7FFFFFFF : Word).toNat < 2 ^ 31 ∧ (3 : Word).toNat < 2 ^ 2 := by decide
theorem witness_SignedExtractReadsTwosComplement : ((0 : Nat) < 1 ∧ (30 : Nat) < 31 ∧ (31 : Nat) ≤ 31) ∧ (31 : Nat) < 32 := by decide
theorem witness_InsertLaws :
    (rangeValid 0 31 ∧ (31 : Nat) ≤ 31 ∧ (0xFFFFFFFF : Word).toNat < 2 ^ (31 - 0 + 1) ∧ (0 : Word) &&& nativeMask 0 31 = 0) ∧
    (rangeValid 31 32 ∧ (1 : Word).toNat < 2 ^ (32 - 31) ∧ (0x7FFFFFFF : Word) &&& nativeMask 31 32 = 0) := by decide
/-- FirstFaultInOrderIsReported and UnitIsTheNativeDatapath: one word for each answer (S1, D1, M14, X16, SX7). -/
theorem witness_FirstFaultInOrderIsReported :
    firstFault ⟨0x00001434, 6, 5⟩ = 0 ∧ firstFault ⟨0x00000000, 0, 0⟩ = 1 ∧ firstFault ⟨0x00000C51, 0, 0⟩ = 2 ∧
    firstFault ⟨0x00001453, 0xFFFFFFFF, 0⟩ = 3 ∧ firstFault ⟨0x00030005, 16, 0⟩ = 4 := by decide
theorem witness_FaultLeavesNoPartialResult :
    (issuing 0x00000C51 0 0).pending = .issue ⟨0x00000C51, 0, 0⟩ :: [] ∧ firstFault ⟨0x00000C51, 0, 0⟩ ≠ 0 := by decide
theorem witness_PermissiveOperandsDoNotFault :
    rangeValid 31 32 ∧ (31 : Nat) < 32 ∧
    Instr.bfIns 31 32 7 9 ∈ [Instr.bfMask 31 32 7 9, .bfExt 31 32 7 9, .bfIns 31 32 7 9] := by decide
theorem witness_FaultDoesNotStopTheUnit :
    (⟨0, 0, [.issue ⟨0, 0, 0⟩, .issue ⟨0x00001431, 0, 0⟩], []⟩ : State).pending =
      .issue ⟨0, 0, 0⟩ :: .issue ⟨0x00001431, 0, 0⟩ :: [] ∧
    firstFault ⟨0, 0, 0⟩ ≠ 0 ∧ firstFault ⟨0x00001431, 0, 0⟩ = 0 := by decide
theorem witness_UnitIsTheNativeDatapath :
    (issuing 0x00030005 12 0).pending = .issue ⟨0x00030005, 12, 0⟩ :: [] ∧
    resultOf ⟨0x00030005, 12, 0⟩ = 0xFFFFFFFFFFFFFFFC ∧ statusOf true ⟨0x00030005, 12, 0⟩ = 0x10 := by decide

end Sys2Proof.Tests
end

section
/-! The unit is the native datapath (R10): the native mask, extraction, insertion and sign extension give the values the
exact-integer rules give, the arithmetic fault order of R70 is the order in which the unit checks, and so every issued
command completes with `nativeResult` or with `firstFault`. -/

namespace Sys2Proof.Machine

open Sys2Proof.Safety

/-! ### Exact integers as native words (R8, R10) -/

/-- The 64-bit pattern of an unsigned word is its zero extension (R8). -/
theorem sext64_toNat (v : Word) : sext64 (v.toNat : Int) = v.setWidth 64 := by
  rw [sext64, BitVec.ofInt_natCast, BitVec.ofNat_toNat]

/-- R54: in 32-bit arithmetic, where `1 << 32` and `1 << 33` are 0, the mask is still the exact one. -/
theorem nativeMask_toNat (f t : Nat) : (nativeMask f t).toNat = mask f t := by
  have ones : (1#32 <<< (t - f + 1)) - 1#32 = BitVec.ofNat 32 (2 ^ (t - f + 1) - 1) := by
    rw [← BitVec.twoPow_eq, ← BitVec.ofNat_sub_ofNat_of_le _ 1 (by decide) Nat.one_le_two_pow]
    congr 1
    exact BitVec.eq_of_toNat_eq (by rw [BitVec.toNat_twoPow, BitVec.toNat_ofNat])
  rw [nativeMask, ones, BitVec.toNat_shiftLeft, BitVec.toNat_ofNat, mask_eq_maskValue, maskValue, Nat.shiftLeft_eq,
    Nat.mod_mul_mod]

theorem nativeExtract_toNat (f t : Nat) (a : Word) : (nativeExtract f t a).toNat = extractField f t a.toNat := by
  rw [nativeExtract, BitVec.toNat_ushiftRight, BitVec.toNat_and, nativeMask_toNat, extractField]

theorem nativeInsert_toNat (f t : Nat) (a b : Word) :
    (nativeInsert f t a b).toNat = insertField f t a.toNat b.toNat := by
  rw [nativeInsert, BitVec.toNat_or, BitVec.toNat_and, BitVec.toNat_shiftLeft, nativeMask_toNat, insertField, mod32]

/-- A number whose bit 31 is set, read as a signed 32-bit word, loses the bits above and gives bit 31 its negative
weight. -/
theorem bmod_of_bit31_set {q x : Nat} (hq : q % 2 = 1) (hx : x < 2 ^ 31) :
    ((2 ^ 31 * q + x : Nat) : Int).bmod (2 ^ 32) = x - 2 ^ 31 := by
  rw [Int.bmod_def]; omega

/-- Shifting the sign bit up to bit 31 and back arithmetically subtracts its weight from the bits below it (R59). -/
theorem toInt_shift_back {v : Word} {n k : Nat} (hnk : n + k = 31) (hs : v.toNat / 2 ^ n % 2 = 1) :
    ((v <<< k).sshiftRight k).toInt = ((v.toNat % 2 ^ n : Nat) : Int) - (2 ^ n : Nat) := by
  have pow31 : 2 ^ n * 2 ^ k = 2 ^ 31 := by rw [← pow_add, hnk]
  have low : v.toNat % 2 ^ n * 2 ^ k < 2 ^ 31 := by
    rw [← pow31]; exact Nat.mul_lt_mul_of_pos_right (Nat.mod_lt _ (Nat.two_pow_pos n)) (Nat.two_pow_pos k)
  have parts : v.toNat * 2 ^ k = 2 ^ 31 * (v.toNat / 2 ^ n) + v.toNat % 2 ^ n * 2 ^ k := by
    rw [← pow31, Nat.mul_right_comm, ← Nat.add_mul, Nat.div_add_mod]
  have factor : ((v.toNat % 2 ^ n * 2 ^ k : Nat) : Int) - 2 ^ 31 =
      ((v.toNat % 2 ^ n : Nat) - (2 ^ n : Nat)) * (2 ^ k : Nat) := by
    rw [Int.sub_mul, ← Int.natCast_mul, ← Int.natCast_mul, pow31]; rfl
  rw [BitVec.toInt_sshiftRight, BitVec.toInt_shiftLeft, Nat.shiftLeft_eq, parts, bmod_of_bit31_set hs low,
    Int.shiftRight_eq_div_pow, factor]
  exact Int.mul_ediv_cancel _ (Int.natCast_ne_zero.mpr (Nat.two_pow_pos k).ne')

/-- SX in hardware (R59): where the sign bit is set it is shifted in from above, elsewhere the word is passed on. -/
theorem sext64_sxValue (v : Word) {w : Nat} (hw : 1 ≤ w) :
    sext64 (sxValue v.toNat w) = nativeSignExtend v w := by
  have bit : v.getLsbD (w - 1) = decide (v.toNat / 2 ^ (w - 1) % 2 = 1) := by
    rw [← BitVec.testBit_toNat, Nat.testBit_eq_decide_div_mod_eq]
  rw [sxValue, nativeSignExtend, bit]
  by_cases hs : v.toNat / 2 ^ (w - 1) % 2 = 1
  · have inside : w ≤ 32 := by
      by_contra hc
      have := v.getLsbD_of_ge (w - 1) (by omega)
      simp [bit, hs] at this
    rw [if_pos hs, if_pos (decide_eq_true hs), BitVec.signExtend, toInt_shift_back (by omega) hs, sext64,
      Nat.cast_pow, Nat.cast_ofNat]
  · rw [if_neg hs, if_neg (by simpa using hs), sext64_toNat]

/-! ### The first fault of a command word (R70) -/

section
variable {c : Issue}

theorem firstFault_illegal (h : illegalWord c.cmd) : firstFault c = 1 := if_pos h

theorem not_illegalWord (h : 1 ≤ opOf c.cmd ∧ opOf c.cmd ≤ 5) (hs : ¬ strayBits c.cmd) : ¬ illegalWord c.cmd := by
  rintro (h0 | h6 | stray) <;> [omega; omega; exact hs stray]

/-- BF.MASK, BF.EXT and BF.INS can only fail their range check. -/
theorem firstFault_ranged (h : opOf c.cmd = 1 ∨ opOf c.cmd = 2 ∨ opOf c.cmd = 4) (hs : ¬ strayBits c.cmd) :
    firstFault c = if rangeValid (fromOf c.cmd) (toOf c.cmd) then 0 else 2 := by
  rw [firstFault, if_neg (not_illegalWord (by omega) hs)]
  by_cases hr : rangeValid (fromOf c.cmd) (toOf c.cmd)
  · rw [if_neg (fun hf => hf.2 hr), if_neg (by omega), if_neg (by omega), if_pos hr]
  · rw [if_pos ⟨by omega, hr⟩, if_neg hr]

/-- BF.EXTS fails its range check, or its width is 1. -/
theorem firstFault_bfExts (h : opOf c.cmd = 3) (hs : ¬ strayBits c.cmd) :
    firstFault c =
      if rangeValid (fromOf c.cmd) (toOf c.cmd) then if fromOf c.cmd = toOf c.cmd then 3 else 0 else 2 := by
  rw [firstFault, if_neg (not_illegalWord (by omega) hs)]
  by_cases hr : rangeValid (fromOf c.cmd) (toOf c.cmd)
  · rw [if_neg (fun hf => hf.2 hr), if_pos hr]
    simp [h]
  · rw [if_pos ⟨by omega, hr⟩, if_neg hr]

/-- SEXT fails its width check before its field check (R60). -/
theorem firstFault_sext (h : opOf c.cmd = 5) (hs : ¬ strayBits c.cmd) :
    firstFault c =
      if widthOf c.cmd ≤ 1 then 3 else if 2 ^ (widthOf c.cmd + 1) ≤ c.a.toNat then 4 else 0 := by
  rw [firstFault, if_neg (not_illegalWord (by omega) hs)]
  simp [h]

end

/-! ### Every command completes as the native datapath does -/

/-- The outcome is the one the native datapath has for the command: its result, or the code of its first fault. -/
def IsNativeOutcome (c : Issue) : CommandOutcome → Prop
  | .ok r => firstFault c = 0 ∧ sext64 r = nativeResult c
  | .fault k => firstFault c = k.code.toNat

section
variable {c : Issue}

/-- A command that can only fail its range check and otherwise gives a word. -/
theorem ranged_isNative {o : CommandOutcome} {v : Word}
    (h : opOf c.cmd = 1 ∨ opOf c.cmd = 2 ∨ opOf c.cmd = 4) (hs : ¬ strayBits c.cmd)
    (valid : rangeValid (fromOf c.cmd) (toOf c.cmd) → o = .ok v.toNat)
    (invalid : ¬ rangeValid (fromOf c.cmd) (toOf c.cmd) → o = .fault .invalidRange)
    (value : nativeResult c = v.setWidth 64) : IsNativeOutcome c o := by
  have hf := firstFault_ranged h hs
  by_cases hr : rangeValid (fromOf c.cmd) (toOf c.cmd)
  · rw [valid hr]
    exact ⟨hf.trans (if_pos hr), by rw [sext64_toNat, value]⟩
  · rw [invalid hr]
    exact hf.trans (if_neg hr)

theorem bfMask_isNative (h : opOf c.cmd = 1) (hs : ¬ strayBits c.cmd) : IsNativeOutcome c (issueOutcome c) := by
  rw [issueOutcome_bfMask h hs]
  exact ranged_isNative (.inl h) hs (fun hr => by rw [bfMaskOutcome_valid hr, nativeMask_toNat])
    bfMaskOutcome_invalid (by simp only [nativeResult, h])

theorem bfExt_isNative (h : opOf c.cmd = 2) (hs : ¬ strayBits c.cmd) : IsNativeOutcome c (issueOutcome c) := by
  rw [issueOutcome_bfExt h hs]
  exact ranged_isNative (.inr (.inl h)) hs (fun hr => by rw [bfExtOutcome_valid _ hr, nativeExtract_toNat])
    (bfExtOutcome_invalid _) (by simp only [nativeResult, h])

theorem bfIns_isNative (h : opOf c.cmd = 4) (hs : ¬ strayBits c.cmd) : IsNativeOutcome c (issueOutcome c) := by
  rw [issueOutcome_bfIns h hs]
  exact ranged_isNative (.inr (.inr h)) hs (fun hr => by rw [bfInsOutcome_valid _ _ hr, nativeInsert_toNat])
    (bfInsOutcome_invalid _ _) (by simp only [nativeResult, h])

theorem bfExts_isNative (h : opOf c.cmd = 3) (hs : ¬ strayBits c.cmd) : IsNativeOutcome c (issueOutcome c) := by
  have hf := firstFault_bfExts h hs
  rw [issueOutcome_bfExts h hs]
  by_cases hr : rangeValid (fromOf c.cmd) (toOf c.cmd)
  · rw [if_pos hr] at hf
    rw [bfExtsOutcome_valid_eq _ hr]
    by_cases he : fromOf c.cmd = toOf c.cmd
    · rw [if_pos he]
      exact hf.trans (if_pos he)
    · rw [if_neg he]
      refine ⟨hf.trans (if_neg he), ?_⟩
      rw [← nativeExtract_toNat, sext64_sxValue _ (Nat.le_add_left 1 _)]
      simp only [nativeResult, h]
  · rw [bfExtsOutcome_invalid _ hr]
    exact hf.trans (if_neg hr)

theorem sext_isNative (h : opOf c.cmd = 5) (hs : ¬ strayBits c.cmd) : IsNativeOutcome c (issueOutcome c) := by
  have hf := firstFault_sext h hs
  rw [issueOutcome_sext h hs, sextOutcome, signExtend_eq]
  by_cases hw : widthOf c.cmd ≤ 1
  · rw [if_pos hw]
    exact hf.trans (if_pos hw)
  rw [if_neg hw] at hf ⊢
  by_cases ha : 2 ^ (widthOf c.cmd + 1) ≤ c.a.toNat
  · rw [if_pos ha]
    exact hf.trans (if_pos ha)
  · rw [if_neg ha]
    refine ⟨hf.trans (if_neg ha), ?_⟩
    rw [sext64_sxValue _ (by omega)]
    simp only [nativeResult, h]

end

/-- The five commands and the words that are none (R47). -/
theorem issueOutcome_isNative (c : Issue) : IsNativeOutcome c (issueOutcome c) := by
  obtain hill | ⟨hs, h | h | h | h | h⟩ := illegal_or_command c.cmd
  · rw [issueOutcome_illegal hill]
    exact firstFault_illegal hill
  · exact bfMask_isNative h hs
  · exact bfExt_isNative h hs
  · exact bfExts_isNative h hs
  · exact bfIns_isNative h hs
  · exact sext_isNative h hs

/-- The completion of an issued command (R24), by `firstFault` and `nativeResult` alone. -/
theorem complete_issueOutcome (c : Issue) (s : State) :
    s.complete (issueOutcome c) =
      if firstFault c = 0 then okState s (nativeResult c) else faultState s (firstFault c) := by
  have native := issueOutcome_isNative c
  cases ho : issueOutcome c with
  | ok r =>
    rw [ho] at native
    obtain ⟨noFault, value⟩ := native
    rw [State.complete_ok, if_pos noFault, value]
  | fault k =>
    rw [ho] at native
    have code : firstFault c = k.code.toNat := native
    rw [State.complete_fault, code, if_neg (Nat.one_le_iff_ne_zero.mp k.code_pos)]

/-- One step on an issued command (R24), by `firstFault` and `nativeResult` alone. -/
theorem step_issue_eq {c : Issue} {s : State} {rest : List HostOp} (h : s.pending = .issue c :: rest) :
    step s = .next
      (if firstFault c = 0 then okState (s.withPending rest) (nativeResult c)
        else faultState (s.withPending rest) (firstFault c)) := by
  rw [step_issue h, complete_issueOutcome]

/-- Settles O45: `step_issue_eq`, its two updates written with `resultOf` and `statusOf`. -/
theorem unitIsTheNativeDatapath : Obligations.UnitIsTheNativeDatapath := by
  intro c s rest h
  rw [step_issue_eq h, resultOf, statusOf]
  by_cases noFault : firstFault c = 0
  · simp only [if_pos noFault]
    rfl
  · simp only [if_neg noFault]
    rfl

end Sys2Proof.Machine
end

section
/-! The registers across a completion, a reset and a step (R16, R23, R24, R27): an outcome without fault is an integer
that RESULT can hold, a completion reads nothing of the old registers but STICKY, and each host operation leaves STICKY as
`stickyAfter` says. -/

namespace Sys2Proof.Machine

open Sys2Proof.Safety

/-! ### An outcome without fault is in the range of RESULT (R19, R24) -/

/-- A fault, or an integer that RESULT can hold (R19). -/
def OkInRange : CommandOutcome → Prop
  | .ok r => -2 ^ 31 ≤ r ∧ r ≤ 2 ^ 32 - 1
  | .fault _ => True

theorem okInRange_natCast {n : Nat} (h : n < 2 ^ 32) : OkInRange (.ok n) := by
  constructor <;> omega

/-- SX of a word (R61): where the result is negative its sign bit is a bit of the word, so at most bit 31. -/
theorem okInRange_sxValue (v : Word) (w : Nat) : OkInRange (.ok (sxValue v.toNat w)) := by
  by_cases sign : v.toNat / 2 ^ (w - 1) % 2 = 1
  · rw [sxValue, if_pos sign]
    have weight_le : 2 ^ (w - 1) ≤ v.toNat := by
      by_contra hc
      rw [Nat.div_eq_of_lt (not_le.mp hc)] at sign
      omega
    have weight_le_bit31 : (2 ^ (w - 1) : Nat) ≤ 2 ^ 31 :=
      Nat.pow_le_pow_right (by decide)
        (Nat.le_of_lt_succ ((Nat.pow_lt_pow_iff_right (by decide)).mp (weight_le.trans_lt v.isLt)))
    have low := Nat.mod_lt v.toNat (Nat.two_pow_pos (w - 1))
    have weight_cast : (2 : Int) ^ (w - 1) = (2 ^ (w - 1) : Nat) := by rw [Nat.cast_pow, Nat.cast_ofNat]
    rw [weight_cast]
    constructor <;> omega
  · rw [sxValue, if_neg sign]
    exact okInRange_natCast v.isLt

theorem okInRange_signExtend (v : Word) (w : Nat) : OkInRange (signExtend v.toNat w) := by
  rw [signExtend_eq]
  split_ifs
  · trivial
  · trivial
  · exact okInRange_sxValue v w

/-- A command that faults on an invalid range is in range if it is on a valid one. -/
theorem okInRange_of_ranged {f t : Nat} {o : CommandOutcome} (valid : rangeValid f t → OkInRange o)
    (invalid : ¬ rangeValid f t → o = .fault .invalidRange) : OkInRange o := by
  by_cases hr : rangeValid f t
  · exact valid hr
  · rw [invalid hr]; trivial

theorem okInRange_outcome (i : Instr) : OkInRange (outcome i) := by
  cases i with
  | bfMask f t a b =>
    refine okInRange_of_ranged (fun hr => ?_) bfMaskOutcome_invalid
    rw [outcome, bfMaskOutcome_valid hr]
    exact okInRange_natCast (mask_lt f t)
  | bfExt f t a b =>
    refine okInRange_of_ranged (fun hr => ?_) (bfExtOutcome_invalid a)
    rw [outcome, bfExtOutcome_valid a hr]
    exact okInRange_natCast ((extractField_le f t _).trans_lt a.isLt)
  | bfExts f t a b =>
    refine okInRange_of_ranged (fun hr => ?_) (bfExtsOutcome_invalid a)
    rw [outcome, bfExtsOutcome_valid a hr, ← nativeExtract_toNat]
    exact okInRange_signExtend _ _
  | bfIns f t a b =>
    refine okInRange_of_ranged (fun hr => ?_) (bfInsOutcome_invalid a b)
    rw [outcome, bfInsOutcome_valid a b hr]
    exact okInRange_natCast (insertField_lt f t a b)
  | sext w a b => exact okInRange_signExtend a w

theorem okInRange_issueOutcome (c : Issue) : OkInRange (issueOutcome c) := by
  unfold issueOutcome
  cases decode c with
  | command i => exact okInRange_outcome i
  | illegal why => trivial

/-- Everything the outcome of an issued command can be: a value of RESULT where no fault applies, or the first fault. -/
theorem issueOutcome_cases (c : Issue) :
    (∃ r, issueOutcome c = .ok r ∧ firstFault c = 0 ∧ sext64 r = nativeResult c ∧ -2 ^ 31 ≤ r ∧ r ≤ 2 ^ 32 - 1) ∨
      ∃ k, issueOutcome c = .fault k ∧ firstFault c = k.code.toNat := by
  have native := issueOutcome_isNative c
  have range := okInRange_issueOutcome c
  cases ho : issueOutcome c with
  | ok r =>
    rw [ho] at native range
    obtain ⟨noFault, value⟩ := native
    exact .inl ⟨r, rfl, noFault, value, range⟩
  | fault k =>
    rw [ho] at native
    exact .inr ⟨k, rfl, native⟩

/-- Settles O4: the two cases of `issueOutcome_cases` are the two updates. -/
theorem completionIsOneOfTheTwoUpdates : Obligations.CompletionIsOneOfTheTwoUpdates := by
  intro c s rest h
  rw [step_issue h]
  obtain ⟨r, ho, noFault, value, low, high⟩ | ⟨k, ho, code⟩ := issueOutcome_cases c
  · refine ⟨fun _ => ⟨r, low, high, value.trans (if_pos noFault).symm, ?_⟩, fun hf => absurd noFault hf⟩
    rw [ho, State.complete_ok]
    rfl
  · have faulted : firstFault c ≠ 0 := by rw [code]; exact Nat.one_le_iff_ne_zero.mp k.code_pos
    refine ⟨fun noFault => absurd noFault faulted, fun _ => ⟨code ▸ k.code_le, ?_⟩⟩
    rw [ho, State.complete_fault, code]
    rfl

/-! ### What a completion leaves in the registers, and from what (R16, R24) -/

section
variable (o : CommandOutcome) (s s' : State)

theorem State.complete_result_eq : (s.complete o).result = (s'.complete o).result := by
  cases o <;> rfl

theorem State.complete_flt_eq : (s.complete o).flt = (s'.complete o).flt := by
  cases o with
  | ok r => simp only [State.complete_ok, okState_flt]
  | fault k => rfl

theorem State.complete_cause_eq : (s.complete o).cause = (s'.complete o).cause := by
  cases o with
  | ok r => simp only [State.complete_ok, okState_cause]
  | fault k => rfl

theorem State.complete_reserved : (s.complete o).reserved = 0 := by
  cases o with
  | ok r => rw [State.complete_ok, okState_reserved]
  | fault k =>
    obtain ⟨-, -, -, reserved⟩ := faultState_fields s k
    rw [State.complete_fault, reserved]

/-- A completion sets STICKY with FLT and otherwise keeps it (R23). -/
theorem State.complete_sticky : (s.complete o).sticky = (s.sticky || (s.complete o).flt) := by
  cases o with
  | ok r => rw [State.complete_ok, okState_sticky, okState_flt, Bool.or_false]
  | fault k =>
    obtain ⟨flt, -, sticky, -⟩ := faultState_fields s k
    rw [State.complete_fault, sticky, flt, Bool.or_true]

end

/-- Settles O5: both states complete with `issueOutcome c`, and a completion depends on the old state in STICKY alone. -/
theorem outcomeDependsOnlyOnTheCommand : Obligations.OutcomeDependsOnlyOnTheCommand := by
  intro c s s' rest rest' h h'
  exact ⟨_, _, step_issue h, step_issue h', State.complete_result_eq .., State.complete_flt_eq ..,
    State.complete_cause_eq .., State.complete_sticky .., State.complete_sticky ..,
    (State.complete_reserved ..).trans (State.complete_reserved ..).symm⟩

/-! ### STICKY across one step (R23) -/

@[simp] theorem State.withPending_sticky (s : State) (ops : List HostOp) : (s.withPending ops).sticky = s.sticky := rfl
@[simp] theorem State.deliver_sticky (s : State) (v : Delivered) : (s.deliver v).sticky = s.sticky := rfl
@[simp] theorem State.applyReset_sticky (s : State) : s.applyReset.sticky = false := by
  simp [State.sticky]

/-- Bit 4 is not one of the hardwired bits (R20). -/
@[simp] theorem State.losePower_sticky (s : State) (r : ResultWord) (st : Word) :
    (s.losePower r st).sticky = st.getLsbD 4 := by
  simp [State.sticky, hardwireStatus]

/-- FLT after an issued command: whether a fault applies to it (R21). -/
theorem complete_issueOutcome_flt (c : Issue) (s : State) : (s.complete (issueOutcome c)).flt = faults c := by
  obtain ⟨r, ho, noFault, -⟩ | ⟨k, ho, code⟩ := issueOutcome_cases c
  · rw [ho, State.complete_ok, okState_flt, faults, noFault]
    rfl
  · obtain ⟨flt, -⟩ := faultState_fields s k
    rw [ho, State.complete_fault, flt, faults, code]
    exact (decide_eq_true (Nat.one_le_iff_ne_zero.mp k.code_pos)).symm

theorem complete_issueOutcome_sticky (c : Issue) (s : State) :
    (s.complete (issueOutcome c)).sticky = (s.sticky || faults c) := by
  rw [State.complete_sticky, complete_issueOutcome_flt]

/-- STICKY after one operation is what the history of that operation alone says. -/
theorem afterHostOp_sticky (op : HostOp) (s : State) : (afterHostOp op s).sticky = stickyAfter s.sticky [op] := by
  cases op with
  | issue c => exact complete_issueOutcome_sticky c s
  | readResult => exact s.deliver_sticky _
  | readStatus => exact s.deliver_sticky _
  | reset => exact s.applyReset_sticky
  | issueWithReset c first =>
    cases first with
    | resetFirst =>
      have after := complete_issueOutcome_sticky c s.applyReset
      rwa [State.applyReset_sticky, Bool.false_or] at after
    | commandFirst => exact State.applyReset_sticky _
  | powerLoss r st => exact s.losePower_sticky r st

theorem step_cons_eq {s : State} {op : HostOp} {rest : List HostOp} (h : s.pending = op :: rest) :
    step s = .next (afterHostOp op (s.withPending rest)) :=
  (step_cons h).trans (performHostOp_eq op _)

/-- An operation that clears STICKY is a reset, an ISSUE coinciding with one, or a loss of power. -/
theorem stickyAfter_false_cases {op : HostOp} (h : stickyAfter true [op] = false) :
    op = .reset ∨ (∃ c first, op = .issueWithReset c first) ∨ ∃ r st, op = .powerLoss r st := by
  cases op with
  | issue c => simp [stickyAfter] at h
  | readResult => simp [stickyAfter] at h
  | readStatus => simp [stickyAfter] at h
  | reset => exact .inl rfl
  | issueWithReset c first => exact .inr (.inl ⟨c, first, rfl⟩)
  | powerLoss r st => exact .inr (.inr ⟨r, st, rfl⟩)

/-- Settles O6: `complete_issueOutcome_sticky` for an ISSUE, and `stickyAfter_false_cases` for whatever is at the front. -/
theorem stickyIsSetByFaultsAndClearedByReset : Obligations.StickyIsSetByFaultsAndClearedByReset := by
  constructor
  · intro c s rest h
    refine ⟨_, step_issue h, ?_⟩
    rw [complete_issueOutcome_sticky, State.withPending_sticky, faults]
    exact ⟨fun faulted => by simp [faulted], fun noFault => by simp [noFault]⟩
  · intro s noLoss wasSet
    cases hp : s.pending with
    | nil => exact ⟨s, step_nil hp, fun clear => absurd wasSet (by simp [clear])⟩
    | cons op rest =>
      refine ⟨_, step_cons_eq hp, fun clear => ?_⟩
      rw [afterHostOp_sticky, State.withPending_sticky, wasSet] at clear
      obtain rfl | ⟨c, first, rfl⟩ | ⟨r, st, rfl⟩ := stickyAfter_false_cases clear
      · exact .inl rfl
      · exact .inr ⟨c, first, rfl⟩
      · exact absurd (by rw [hp]; rfl) (noLoss r st)

/-! ### Reset (R27) -/

/-- Settles O1: the start state by definition, and a reset of any state by the rules of `applyReset`. -/
theorem resetLeavesBothRegistersZero : Obligations.ResetLeavesBothRegistersZero := by
  refine ⟨rfl, rfl, rfl, fun s rest h => ⟨_, step_cons_eq h, ?_⟩⟩
  exact ⟨State.applyReset_result _, State.applyReset_status _, State.applyReset_pending _⟩

end Sys2Proof.Machine
end

section
/-! The host's operations (20_memory.md): a read delivers its register and leaves both as they are, so the reads of a run
with no ISSUE between them agree; an ISSUE writes the two registers only (R24, R32). -/

namespace Sys2Proof.Machine

/-! ### A run, one operation at a time (R34) -/

theorem core_run_cons {s : State} {op : HostOp} {rest : List HostOp} (h : s.pending = op :: rest) (k : Nat) :
    core.run (k + 1) s = core.run k (afterHostOp op (s.withPending rest)) := by
  have front : core.step s = .next (afterHostOp op (s.withPending rest)) := step_cons_eq h
  simp only [Host.Core.run, front]

/-! ### Reads (R32) -/

theorem step_readResult {s : State} {rest : List HostOp} (h : s.pending = .readResult :: rest) :
    step s = .next ((s.withPending rest).deliver (.result s.readResult)) := step_cons_eq h

theorem step_readStatus {s : State} {rest : List HostOp} (h : s.pending = .readStatus :: rest) :
    step s = .next ((s.withPending rest).deliver (.status s.readStatus)) := step_cons_eq h

/-- What reading both registers leaves: the two values delivered, and neither register changed. -/
def State.afterReadingBoth (s : State) (rest : List HostOp) : State :=
  ((s.withPending rest).deliver (.result s.readResult)).deliver (.status s.readStatus)

section
variable (s : State) (rest : List HostOp)

@[simp] theorem State.afterReadingBoth_result : (s.afterReadingBoth rest).result = s.result := rfl
@[simp] theorem State.afterReadingBoth_status : (s.afterReadingBoth rest).status = s.status := rfl
@[simp] theorem State.afterReadingBoth_pending : (s.afterReadingBoth rest).pending = rest := rfl
@[simp] theorem State.afterReadingBoth_delivered :
    (s.afterReadingBoth rest).delivered = .status s.readStatus :: .result s.readResult :: s.delivered := rfl
@[simp] theorem State.afterReadingBoth_readResult : (s.afterReadingBoth rest).readResult = s.readResult := rfl
@[simp] theorem State.afterReadingBoth_readStatus : (s.afterReadingBoth rest).readStatus = s.readStatus := rfl

end

theorem core_run_readBoth {s : State} {rest : List HostOp} (h : s.pending = .readResult :: .readStatus :: rest)
    (k : Nat) : core.run (k + 2) s = core.run k (s.afterReadingBoth rest) := by
  rw [core_run_cons h, core_run_cons (State.deliver_pending _ _)]
  rfl

/-! ### ISSUE (R24) -/

/-- A completion writes RESULT and STATUS and nothing else. -/
theorem State.complete_eq_update (s : State) (o : CommandOutcome) :
    s.complete o = { s with result := (s.complete o).result, status := (s.complete o).status } := by
  cases o <;> rfl

/-- Settles O12: one rule per read, the second pair of reads from the registers the first pair left, and the frame of a
completion for ISSUE. -/
theorem readsHaveNoEffectAndRepeat : Obligations.ReadsHaveNoEffectAndRepeat := by
  refine ⟨fun s rest h => step_readResult h, fun s rest h => step_readStatus h, ?_, ?_⟩
  · intro s rest h
    have run : core.run 4 s = .next ((s.afterReadingBoth (.readResult :: .readStatus :: rest)).afterReadingBoth rest) :=
      (core_run_readBoth h 2).trans (core_run_readBoth (State.afterReadingBoth_pending _ _) 0)
    exact ⟨_, s.readResult, s.readStatus, run, by simp, by simp, by simp⟩
  · intro c s rest h
    exact ⟨_, _, (step_issue h).trans (congrArg _ (State.complete_eq_update _ _))⟩

end Sys2Proof.Machine
end

section
/-! The encoding (30_encoding.md): `decode` answers a command exactly where the word's fields are that command's, so it
inverts `encode` both ways; match and mask values, the assembler and the disassembler are read off the same fields. -/

namespace Sys2Proof

open Sys2Proof.Machine Sys2Proof.Safety
open Sys2Proof.Laws.EncodeFields (fields enc_eq_add)

/-! ### A word and its fields (R40, R43) -/

theorem fields_lt (w : Word) : opOf w < 16 ∧ fromOf w < 64 ∧ toOf w < 64 ∧ widthOf w < 64 := by
  refine ⟨?_, ?_, ?_, ?_⟩ <;> exact Nat.mod_lt _ (by decide)

/-- A word with RSV 0 is what R48 encodes of its fields. -/
theorem ofNat_enc_fields {w : Word} (hrsv : rsvOf w = 0) :
    BitVec.ofNat 32 (enc (opOf w) (fromOf w) (toOf w) (widthOf w)) = w := by
  obtain ⟨hop, hfrom, hto, -⟩ := fields_lt w
  have value : enc (opOf w) (fromOf w) (toOf w) (widthOf w) = w.toNat := by
    rw [enc_eq_add hop hfrom hto, word_eq_fields w, hrsv]
    rfl
  rw [value, BitVec.ofNat_toNat, BitVec.setWidth_eq]

theorem not_strayBits_iff (w : Word) :
    ¬ strayBits w ↔
      rsvOf w = 0 ∧ (opOf w ≠ 5 → widthOf w = 0) ∧ (opOf w = 5 → fromOf w = 0 ∧ toOf w = 0) := by
  simp only [strayBits]
  omega

theorem not_illegalWord_iff (w : Word) : ¬ illegalWord w ↔ (1 ≤ opOf w ∧ opOf w ≤ 5) ∧ ¬ strayBits w := by
  simp only [illegalWord, not_or, ← and_assoc]
  refine and_congr_left' ?_
  omega

/-! ### When `decode` answers a command (R41, R45) -/

/-- The word has the command's fields and RSV 0, and the operand words are the command's. -/
def Spells (c : Issue) (i : Instr) : Prop :=
  (opOf c.cmd, fromOf c.cmd, toOf c.cmd, widthOf c.cmd) = fields i ∧ rsvOf c.cmd = 0 ∧ i.operands = (c.a, c.b)

section
variable {c : Issue} {i : Instr}

/-- A word decodes to the command it spells. -/
theorem decode_of_spells (h : Spells c i) : decode c = .command i := by
  obtain ⟨hfields, hrsv, hops⟩ := h
  cases i <;> simp only [fields, Instr.operands, Prod.mk.injEq] at hfields hops <;>
    simp [decode_eq, hfields, hrsv, hops]

/-- A word spells the command it decodes to. -/
theorem spells_of_decode (hd : decode c = .command i) : Spells c i := by
  obtain hill | ⟨hs, hop⟩ := illegal_or_command c.cmd
  · obtain ⟨why, hwhy⟩ := decode_illegal hill
    rw [hwhy] at hd
    cases hd
  obtain ⟨hrsv, hwidth, hrange⟩ := (not_strayBits_iff c.cmd).mp hs
  obtain h | h | h | h | h := hop
  · obtain rfl := Decoded.command.inj ((decode_bfMask h hs).symm.trans hd)
    exact ⟨by rw [h, hwidth (by omega), fields], hrsv, rfl⟩
  · obtain rfl := Decoded.command.inj ((decode_bfExt h hs).symm.trans hd)
    exact ⟨by rw [h, hwidth (by omega), fields], hrsv, rfl⟩
  · obtain rfl := Decoded.command.inj ((decode_bfExts h hs).symm.trans hd)
    exact ⟨by rw [h, hwidth (by omega), fields], hrsv, rfl⟩
  · obtain rfl := Decoded.command.inj ((decode_bfIns h hs).symm.trans hd)
    exact ⟨by rw [h, hwidth (by omega), fields], hrsv, rfl⟩
  · obtain rfl := Decoded.command.inj ((decode_sext h hs).symm.trans hd)
    obtain ⟨hfrom, hto⟩ := hrange h
    exact ⟨by rw [h, hfrom, hto, fields], hrsv, rfl⟩

theorem Spells.legal (h : Spells c i) : ¬ illegalWord c.cmd := by
  intro hill
  obtain ⟨why, hwhy⟩ := decode_illegal hill
  rw [decode_of_spells h] at hwhy
  cases hwhy

theorem exists_decode_of_legal (h : ¬ illegalWord c.cmd) : ∃ i, decode c = .command i := by
  obtain hill | ⟨hs, hop | hop | hop | hop | hop⟩ := illegal_or_command c.cmd
  · exact absurd hill h
  · exact ⟨_, decode_bfMask hop hs⟩
  · exact ⟨_, decode_bfExt hop hs⟩
  · exact ⟨_, decode_bfExts hop hs⟩
  · exact ⟨_, decode_bfIns hop hs⟩
  · exact ⟨_, decode_sext hop hs⟩

/-- The conditions of R45 are all there are. -/
theorem decode_illegal_iff : (∃ why, decode c = .illegal why) ↔ illegalWord c.cmd := by
  refine ⟨fun ⟨why, hwhy⟩ => ?_, decode_illegal⟩
  by_contra legal
  obtain ⟨i, hi⟩ := exists_decode_of_legal legal
  rw [hi] at hwhy
  cases hwhy

/-- The OP of a decoded command, whose word has no stray bits (R42, R43). -/
theorem op_of_decode (hd : decode c = .command i) : opOf c.cmd = (fields i).1 ∧ ¬ strayBits c.cmd := by
  have spells := spells_of_decode hd
  obtain ⟨-, hs⟩ := (not_illegalWord_iff _).mp spells.legal
  obtain ⟨hfields, -⟩ := spells
  exact ⟨congrArg Prod.fst hfields, hs⟩

end

/-! ### Encoding and decoding are inverse (R43, R48) -/

section
variable {c : Issue} {i : Instr}

theorem encodeWord_of_fields {op f t w : Nat} (h : fields i = (op, f, t, w)) :
    encodeWord i = BitVec.ofNat 32 (enc op f t w) := by
  cases i <;> cases h <;> rfl

/-- Every well-formed command is spelled by what `encode` gives for it. -/
theorem encode_spells (hwf : i.wellFormed = true) : Spells (encode i) i := by
  have hword : Laws.EncodeFields.Statement i := by
    cases i with
    | bfMask f t a b => exact Laws.EncodeFields.bfMask f t a b
    | bfExt f t a b => exact Laws.EncodeFields.bfExt f t a b
    | bfExts f t a b => exact Laws.EncodeFields.bfExts f t a b
    | bfIns f t a b => exact Laws.EncodeFields.bfIns f t a b
    | sext w a b => exact Laws.EncodeFields.sext w a b
  obtain ⟨hfields, hrsv⟩ := hword hwf
  exact ⟨hfields, hrsv, rfl⟩

theorem decode_encode (hwf : i.wellFormed = true) : decode (encode i) = .command i :=
  decode_of_spells (encode_spells hwf)

theorem Spells.encode_eq (h : Spells c i) : encode i = c := by
  obtain ⟨hfields, hrsv, hops⟩ := h
  rw [encode, encodeWord_of_fields hfields.symm, ofNat_enc_fields hrsv, hops]

theorem wellFormed_of_fields {op f t w : Nat} (h : fields i = (op, f, t, w)) (hf : f < 64) (ht : t < 64)
    (hw : w < 64) : i.wellFormed = true := by
  cases i <;> cases h <;> simp [Instr.wellFormed, idxFits, widthFits, Config.idxBits, Config.widthBits, hf, ht, hw]

/-- The fields of a word are in the range of R51, whatever the word. -/
theorem Spells.wellFormed (h : Spells c i) : i.wellFormed = true := by
  obtain ⟨hfields, -⟩ := h
  obtain ⟨-, hfrom, hto, hwidth⟩ := fields_lt c.cmd
  exact wellFormed_of_fields hfields.symm hfrom hto hwidth

end

/-! ### Words that are no command (R43, R44, R45) -/

theorem step_illegalWord {c : Issue} {s : State} {rest : List HostOp} (h : s.pending = .issue c :: rest)
    (hill : illegalWord c.cmd) : step s = .next (faultState { s with pending := rest } 1) := by
  rw [step_issue h, issueOutcome_illegal hill, State.complete_fault]
  rfl

/-- Settles O20: a word with stray bits is illegal, and a word spells the one command it decodes to. -/
theorem everyLegalWordHasOneSpelling : Obligations.EveryLegalWordHasOneSpelling := by
  refine ⟨fun c s rest h _ _ hs => step_illegalWord h (.inr (.inr hs)), fun c i hd => ?_⟩
  have spells := spells_of_decode hd
  exact ⟨spells.wellFormed, spells.encode_eq⟩

/-- Settles O21: such an OP makes the word illegal. -/
theorem illegalOpcodesAreRejected : Obligations.IllegalOpcodesAreRejected := by
  refine ⟨fun c s rest h hop => step_illegalWord h ?_, fun a b s rest h => step_illegalWord h (.inl rfl)⟩
  exact hop.imp_right .inl

/-! ### Commands whose values fail a check (R45, R53, R59) -/

/-- The commands that take a range. -/
abbrev rangedCommands (f t : Nat) (a b : Word) : List Instr :=
  [.bfMask f t a b, .bfExt f t a b, .bfExts f t a b, .bfIns f t a b]

theorem wellFormed_of_mem_ranged {f t : Nat} {a b : Word} {i : Instr} (hi : i ∈ rangedCommands f t a b)
    (hf : f < 64) (ht : t < 64) : i.wellFormed = true := by
  simp only [List.mem_cons, List.not_mem_nil, or_false] at hi
  obtain rfl | rfl | rfl | rfl := hi <;> exact wellFormed_of_fields rfl hf ht (by decide)

theorem outcome_of_mem_ranged {f t : Nat} {a b : Word} {i : Instr} (hi : i ∈ rangedCommands f t a b)
    (hr : ¬ rangeValid f t) : outcome i = .fault .invalidRange := by
  simp only [List.mem_cons, List.not_mem_nil, or_false] at hi
  obtain rfl | rfl | rfl | rfl := hi
  · exact bfMaskOutcome_invalid hr
  · exact bfExtOutcome_invalid a hr
  · exact bfExtsOutcome_invalid a hr
  · exact bfInsOutcome_invalid a b hr

theorem exec_invalidRange {f t : Nat} {a b : Word} {i : Instr} (hi : i ∈ rangedCommands f t a b)
    (hr : ¬ rangeValid f t) (s : State) : exec i s = .next (faultState s 2) := by
  rw [exec_eq, outcome_of_mem_ranged hi hr, State.complete_fault]
  rfl

theorem exec_sext_invalidWidth {w : Nat} (hw : w ≤ 1) (a b : Word) (s : State) :
    exec (.sext w a b) s = .next (faultState s 3) := by
  rw [exec_eq, outcome, sextOutcome, signExtend_eq, if_pos hw, State.complete_fault]
  rfl

theorem exists_decode_of_wellFormed {i : Instr} (hwf : i.wellFormed = true) : ∃ c, decode c = .command i :=
  ⟨encode i, decode_encode hwf⟩

/-- Settles O22: `decode_illegal_iff`, and the well-formed commands decode whatever their checks say of their values. -/
theorem decodeRefusesOnlySpellings : Obligations.DecodeRefusesOnlySpellings := by
  refine ⟨fun c => decode_illegal_iff, fun c s rest h hill => step_illegalWord h hill, ?_, ?_⟩
  · intro f t a b s hf ht hr i hi
    exact ⟨exists_decode_of_wellFormed (wellFormed_of_mem_ranged hi hf ht), exec_invalidRange hi hr s⟩
  · intro w a b s hw
    have hwf : (Instr.sext w a b).wellFormed = true :=
      wellFormed_of_fields rfl (by decide) (by decide) (by omega)
    exact ⟨exists_decode_of_wellFormed hwf, exec_sext_invalidWidth hw a b s⟩

/-- Settles O24: the fields do not overlap, so their OR is a sum; the worked words by evaluation; the last of them is
a well-formed command with an invalid range. -/
theorem encodingPlacesTheFields : Obligations.EncodingPlacesTheFields := by
  refine ⟨fun op f t w hop hf ht _ => ⟨rfl, enc_eq_add hop hf ht⟩, fun a b => ⟨rfl, rfl, rfl, rfl, rfl⟩, ?_⟩
  intro a b s
  exact ⟨decode_encode (i := .bfMask 5 3 a b) rfl, exec_invalidRange (List.mem_cons_self ..) (by decide) s⟩

/-! ### Match and mask values (R42, R47) -/

/-- AND with a mask acts on the parts of a word above and below a bit position apart. -/
theorem and_of_parts {n y q : Nat} (hy : y < 2 ^ n) (hq : q < 2 ^ n) (x p : Nat) :
    (2 ^ n * x + y) &&& (2 ^ n * p + q) = 2 ^ n * (x &&& p) + (y &&& q) := by
  apply Nat.eq_of_testBit_eq
  intro j
  rw [Nat.testBit_and, Nat.testBit_two_pow_mul_add _ hy, Nat.testBit_two_pow_mul_add _ hq,
    Nat.testBit_two_pow_mul_add _ (Nat.and_lt_two_pow y hq)]
  split_ifs <;> rw [Nat.testBit_and]

/-- The mask of the rows with a range keeps OP, WIDTH and RSV. -/
theorem and_rangedMask_toNat (w : Word) :
    (w &&& 0xFFFF000F#32).toNat = 2 ^ 16 * (w.toNat / 2 ^ 16) + opOf w := by
  have parts := and_of_parts (n := 16) (y := w.toNat % 2 ^ 16) (q := 2 ^ 4 - 1) (by omega) (by decide)
    (w.toNat / 2 ^ 16) (2 ^ 16 - 1)
  rw [Nat.div_add_mod, Nat.and_two_pow_sub_one_eq_mod, Nat.and_two_pow_sub_one_eq_mod] at parts
  rw [BitVec.toNat_and]
  refine parts.trans ?_
  have := w.isLt
  unfold opOf
  omega

/-- The mask of SEXT's row keeps OP, FROM, TO and RSV. -/
theorem and_sextMask_toNat (w : Word) :
    (w &&& 0xFFC0FFFF#32).toNat = 2 ^ 22 * rsvOf w + w.toNat % 2 ^ 16 := by
  have parts := and_of_parts (n := 22) (y := w.toNat % 2 ^ 22) (q := 2 ^ 16 - 1) (by omega) (by decide)
    (w.toNat / 2 ^ 22) (2 ^ 10 - 1)
  rw [Nat.div_add_mod, Nat.and_two_pow_sub_one_eq_mod, Nat.and_two_pow_sub_one_eq_mod] at parts
  rw [BitVec.toNat_and]
  refine parts.trans ?_
  have := w.isLt
  unfold rsvOf
  omega

theorem and_rangedMask_eq_iff (w : Word) {n : Nat} (h : 1 ≤ n ∧ n ≤ 4) :
    w &&& 0xFFFF000F#32 = BitVec.ofNat 32 n ↔ opOf w = n ∧ ¬ strayBits w := by
  rw [← BitVec.toNat_inj, and_rangedMask_toNat, BitVec.toNat_ofNat, not_strayBits_iff]
  unfold opOf widthOf rsvOf
  omega

theorem and_sextMask_eq_iff (w : Word) : w &&& 0xFFC0FFFF#32 = 5#32 ↔ opOf w = 5 ∧ ¬ strayBits w := by
  rw [← BitVec.toNat_inj, and_sextMask_toNat, BitVec.toNat_ofNat, not_strayBits_iff]
  unfold opOf fromOf toOf rsvOf
  omega

theorem and_rangedMask_mem_iff (w : Word) :
    w &&& 0xFFFF000F#32 ∈ [1#32, 2#32, 3#32, 4#32] ↔ (1 ≤ opOf w ∧ opOf w ≤ 4) ∧ ¬ strayBits w := by
  simp only [List.mem_cons, List.not_mem_nil, or_false]
  rw [and_rangedMask_eq_iff w (n := 1) (by decide), and_rangedMask_eq_iff w (n := 2) (by decide),
    and_rangedMask_eq_iff w (n := 3) (by decide), and_rangedMask_eq_iff w (n := 4) (by decide), ← or_and_right,
    ← or_and_right, ← or_and_right]
  refine and_congr_left' ?_
  omega

/-- Settles O19: each row selects one OP without stray bits, and so does decoding to its command. -/
theorem matchAndMaskSelectTheLegalWords : Obligations.MatchAndMaskSelectTheLegalWords := by
  intro c
  rw [and_rangedMask_mem_iff, ne_eq, and_sextMask_eq_iff, decode_illegal_iff,
    and_rangedMask_eq_iff _ (n := 1) (by decide), and_rangedMask_eq_iff _ (n := 2) (by decide),
    and_rangedMask_eq_iff _ (n := 3) (by decide), and_rangedMask_eq_iff _ (n := 4) (by decide)]
  refine ⟨⟨fun ⟨_, _, hd⟩ => op_of_decode hd, fun ⟨hop, hs⟩ => ⟨_, _, decode_bfMask hop hs⟩⟩,
    ⟨fun ⟨_, _, hd⟩ => op_of_decode hd, fun ⟨hop, hs⟩ => ⟨_, _, decode_bfExt hop hs⟩⟩,
    ⟨fun ⟨_, _, hd⟩ => op_of_decode hd, fun ⟨hop, hs⟩ => ⟨_, _, decode_bfExts hop hs⟩⟩,
    ⟨fun ⟨_, _, hd⟩ => op_of_decode hd, fun ⟨hop, hs⟩ => ⟨_, _, decode_bfIns hop hs⟩⟩,
    ⟨fun ⟨_, hd⟩ => op_of_decode hd, fun ⟨hop, hs⟩ => ⟨_, decode_sext hop hs⟩⟩, ?_, ?_⟩
  · rintro ⟨⟨⟨-, hle⟩, -⟩, hop, -⟩
    omega
  · rw [← not_or, ← or_and_right, ← not_iff_not, not_not, not_illegalWord_iff]
    refine and_congr_left' ?_
    omega

/-! ### Ignored operands (R46) -/

/-- B is read by BF.INS alone. -/
theorem issueOutcome_ignores_b {cmd : Word} (hop : opOf cmd ≠ 4) (a b b' : Word) :
    issueOutcome ⟨cmd, a, b'⟩ = issueOutcome ⟨cmd, a, b⟩ := by
  obtain hill | ⟨hs, h | h | h | h | h⟩ := illegal_or_command cmd
  · rw [issueOutcome_illegal (c := ⟨cmd, a, b'⟩) hill, issueOutcome_illegal (c := ⟨cmd, a, b⟩) hill]
  · rw [issueOutcome_bfMask (c := ⟨cmd, a, b'⟩) h hs, issueOutcome_bfMask (c := ⟨cmd, a, b⟩) h hs]
  · rw [issueOutcome_bfExt (c := ⟨cmd, a, b'⟩) h hs, issueOutcome_bfExt (c := ⟨cmd, a, b⟩) h hs]
  · rw [issueOutcome_bfExts (c := ⟨cmd, a, b'⟩) h hs, issueOutcome_bfExts (c := ⟨cmd, a, b⟩) h hs]
  · exact absurd h hop
  · rw [issueOutcome_sext (c := ⟨cmd, a, b'⟩) h hs, issueOutcome_sext (c := ⟨cmd, a, b⟩) h hs]

/-- BF.MASK and the illegal words read neither operand. -/
theorem issueOutcome_ignores_operands {cmd : Word} (h : opOf cmd = 1 ∨ illegalWord cmd) (a b a' b' : Word) :
    issueOutcome ⟨cmd, a', b'⟩ = issueOutcome ⟨cmd, a, b⟩ := by
  by_cases hill : illegalWord cmd
  · rw [issueOutcome_illegal (c := ⟨cmd, a', b'⟩) hill, issueOutcome_illegal (c := ⟨cmd, a, b⟩) hill]
  · obtain ⟨-, hs⟩ := (not_illegalWord_iff cmd).mp hill
    have hop := h.resolve_right hill
    rw [issueOutcome_bfMask (c := ⟨cmd, a', b'⟩) hop hs, issueOutcome_bfMask (c := ⟨cmd, a, b⟩) hop hs]

/-- Commands of one outcome are interchangeable at the front. -/
theorem step_issue_congr {c c' : Issue} {s : State} {rest : List HostOp} (h : s.pending = .issue c :: rest)
    (same : issueOutcome c' = issueOutcome c) : step { s with pending := .issue c' :: rest } = step s := by
  rw [step_issue h, step_issue (c := c') (rest := rest) rfl, same]
  rfl

/-- Settles O23: the outcome does not depend on an ignored operand, and the step only on the outcome. -/
theorem ignoredOperandsNeverMatter : Obligations.IgnoredOperandsNeverMatter := by
  intro cmd a b a' b' s s' rest h
  refine ⟨?_, ?_⟩
  · rintro hop rfl
    exact step_issue_congr h (issueOutcome_ignores_b hop a b b')
  · rintro ignored rfl
    exact step_issue_congr h (issueOutcome_ignores_operands ignored a b a' b')

/-! ### The assembler (R49, R51) -/

namespace Asm

/-- What `from`, `to` and `width` can be (R51). -/
def IndexFits (v : Int) : Prop := 0 ≤ v ∧ v ≤ 63
deriving Decidable

/-- What `a` and `b` can be (R51). -/
def WordFits (v : Int) : Prop := 0 ≤ v ∧ v ≤ 2 ^ 32 - 1
deriving Decidable

theorem index?_eq (v : Int) : index? v = if IndexFits v then some v.toNat else none :=
  if_congr (and_congr_right fun _ => by omega) rfl rfl

theorem word?_eq (v : Int) : word? v = if WordFits v then some (BitVec.ofInt 32 v) else none := by
  refine if_ctx_congr (and_congr_right fun _ => by omega) (fun fits => ?_) fun _ => rfl
  obtain ⟨n, rfl⟩ := Int.eq_ofNat_of_zero_le fits.1
  rw [Int.toNat_natCast, BitVec.ofInt_natCast]

/-- A check that fails rejects the line. -/
theorem checked_bind {α β : Type} (p : Prop) [Decidable p] (x : α) (g : α → Option β) :
    (if p then some x else none).bind g = if p then g x else none := by
  split_ifs <;> rfl

theorem checked_map {α β : Type} (p : Prop) [Decidable p] (x : α) (g : α → β) :
    (if p then some x else none).map g = if p then some (g x) else none := by
  split_ifs <;> rfl

section
variable (f t a b w : Int)

theorem command?_bfMask :
    command? (.bfMask f t) = if IndexFits f ∧ IndexFits t then some (.bfMask f.toNat t.toNat 0 0) else none := by
  simp only [command?, index?_eq, checked_bind, checked_map, ite_and]

theorem command?_bfExt :
    command? (.bfExt f t a) =
      if IndexFits f ∧ IndexFits t ∧ WordFits a then
        some (.bfExt f.toNat t.toNat (BitVec.ofInt 32 a) 0)
      else none := by
  simp only [command?, index?_eq, word?_eq, checked_bind, checked_map, ite_and]

theorem command?_bfExts :
    command? (.bfExts f t a) =
      if IndexFits f ∧ IndexFits t ∧ WordFits a then
        some (.bfExts f.toNat t.toNat (BitVec.ofInt 32 a) 0)
      else none := by
  simp only [command?, index?_eq, word?_eq, checked_bind, checked_map, ite_and]

theorem command?_bfIns :
    command? (.bfIns f t b a) =
      if IndexFits f ∧ IndexFits t ∧ WordFits b ∧ WordFits a then
        some (.bfIns f.toNat t.toNat (BitVec.ofInt 32 a) (BitVec.ofInt 32 b))
      else none := by
  simp only [command?, index?_eq, word?_eq, checked_bind, checked_map, ite_and]

theorem command?_sext :
    command? (.sext w a) =
      if IndexFits w ∧ WordFits a then some (.sext w.toNat (BitVec.ofInt 32 a) 0) else none := by
  simp only [command?, index?_eq, word?_eq, checked_bind, checked_map, ite_and]

end

/-- The number of a field that passes its check fits the field. -/
theorem IndexFits.toNat_lt {v : Int} (h : IndexFits v) : v.toNat < 64 := by
  unfold IndexFits at h
  omega

/-- A line that stands for a well-formed command exactly where its operands pass assembles to a word of that command
there, and to nothing elsewhere. -/
theorem assemble_of_command? {l : Line} {i : Instr} {p : Prop} [Decidable p]
    (hl : command? l = if p then some i else none) (hwf : p → i.wellFormed = true) :
    (p → ∃ c, assemble l = some c ∧ decode c = .command i) ∧ (¬ p → assemble l = none) := by
  unfold assemble
  rw [hl, checked_map]
  exact ⟨fun hp => ⟨encode i, if_pos hp, decode_encode (hwf hp)⟩, fun hp => if_neg hp⟩

end Asm

open Asm in
/-- Settles O25: `assemble_of_command?` for each of the five lines. -/
theorem assemblerRejectsOnlyTheUnencodable : Obligations.AssemblerRejectsOnlyTheUnencodable := by
  refine ⟨fun f t => ?_, fun f t a => ?_, fun f t b a => ?_, fun w a => ?_⟩
  · obtain ⟨accepts, rejects⟩ := assemble_of_command? (command?_bfMask f t)
      fun ⟨hf, ht⟩ => wellFormed_of_fields rfl hf.toNat_lt ht.toNat_lt (by decide)
    exact ⟨fun h => let ⟨c, hc, hd⟩ := accepts h; ⟨c, 0, 0, hc, hd⟩, rejects⟩
  · obtain ⟨accepts, rejects⟩ := assemble_of_command? (command?_bfExt f t a)
      fun ⟨hf, ht, _⟩ => wellFormed_of_fields rfl hf.toNat_lt ht.toNat_lt (by decide)
    obtain ⟨acceptsSigned, rejectsSigned⟩ := assemble_of_command? (command?_bfExts f t a)
      fun ⟨hf, ht, _⟩ => wellFormed_of_fields rfl hf.toNat_lt ht.toNat_lt (by decide)
    refine ⟨fun h => ⟨?_, ?_⟩, fun h => ⟨rejects h, rejectsSigned h⟩⟩
    · obtain ⟨c, hc, hd⟩ := accepts h
      exact ⟨c, 0, hc, hd⟩
    · obtain ⟨c, hc, hd⟩ := acceptsSigned h
      exact ⟨c, 0, hc, hd⟩
  · obtain ⟨accepts, rejects⟩ := assemble_of_command? (command?_bfIns f t a b)
      fun ⟨hf, ht, _⟩ => wellFormed_of_fields rfl hf.toNat_lt ht.toNat_lt (by decide)
    exact ⟨fun ⟨hf, ht, ha, hb⟩ => accepts ⟨hf, ht, hb, ha⟩,
      fun h => rejects fun ⟨hf, ht, hb, ha⟩ => h ⟨hf, ht, ha, hb⟩⟩
  · obtain ⟨accepts, rejects⟩ := assemble_of_command? (command?_sext a w)
      fun ⟨hw, _⟩ => wellFormed_of_fields rfl (by decide) (by decide) hw.toNat_lt
    exact ⟨fun h => let ⟨c, hc, hd⟩ := accepts h; ⟨c, 0, hc, hd⟩, rejects⟩

/-! ### Disassembly (R52) -/

namespace Asm

theorem disassemble_of_fields {v : Word} {i : Instr} {op f t w : Nat} (hd : decode ⟨v, 0, 0⟩ = .command i)
    (h : fields i = (op, f, t, w)) : disassemble v = .command op f t w := by
  rw [disassemble, hd]
  cases i <;> cases h <;> rfl

theorem disassemble_legal {v : Word} (h : ¬ illegalWord v) :
    disassemble v = .command (opOf v) (fromOf v) (toOf v) (widthOf v) := by
  obtain ⟨i, hd⟩ := exists_decode_of_legal (c := ⟨v, 0, 0⟩) h
  obtain ⟨hfields, -⟩ := spells_of_decode hd
  exact disassemble_of_fields hd hfields.symm

theorem disassemble_illegal {v : Word} (h : illegalWord v) : disassemble v = .rawWord v := by
  obtain ⟨why, hwhy⟩ := decode_illegal (c := ⟨v, 0, 0⟩) h
  rw [disassemble, hwhy]

theorem hexDigits_length (k n : Nat) : (hexDigits k n).length = k := by
  induction k generalizing n with
  | zero => rfl
  | succ k ih => rw [hexDigits, List.length_append, ih, List.length_singleton]

theorem digit?_hexDigit {n : Nat} (h : n < 16) : digit? (hexDigit n) = some n := by
  revert n
  decide

theorem digitsValue?_append (base : Nat) (xs ys : List Char) (acc : Nat) :
    digitsValue? base (xs ++ ys) acc = (digitsValue? base xs acc).bind (digitsValue? base ys) := by
  induction xs generalizing acc with
  | nil => rfl
  | cons c cs ih =>
    rw [List.cons_append, digitsValue?, digitsValue?, Option.bind_assoc]
    congr 1
    funext d
    split_ifs
    · exact ih _
    · rfl

/-- Reading back the lowest `k` hexadecimal digits of a number gives it modulo `16 ^ k`. -/
theorem digitsValue?_hexDigits (k n : Nat) : digitsValue? 16 (hexDigits k n) 0 = some (n % 16 ^ k) := by
  induction k generalizing n with
  | zero => rw [hexDigits, digitsValue?, pow_zero, Nat.mod_one]
  | succ k ih =>
    have low : n % 16 < 16 := Nat.mod_lt n (by decide)
    rw [hexDigits, digitsValue?_append, ih, Option.bind_some, digitsValue?, digit?_hexDigit low, Option.bind_some,
      if_pos low, digitsValue?, pow_succ', Nat.mod_mul, Nat.add_comm, Nat.mul_comm]

end Asm

/-- Settles O26: a legal word disassembles to its own fields, which encode back to it; eight hexadecimal digits hold
the whole of an illegal word. -/
theorem disassemblyInvertsEncoding : Obligations.DisassemblyInvertsEncoding := by
  intro w
  refine ⟨fun legal => ?_, fun hill => ?_⟩
  · obtain ⟨-, hs⟩ := (not_illegalWord_iff w).mp legal
    obtain ⟨hrsv, -⟩ := (not_strayBits_iff w).mp hs
    exact ⟨_, _, _, _, Asm.disassemble_legal legal, ofNat_enc_fields hrsv, rfl, rfl, rfl, rfl⟩
  · have raw := Asm.disassemble_illegal hill
    refine ⟨raw, Asm.hexDigits 8 w.toNat, by rw [raw, Asm.Disassembly.text], Asm.hexDigits_length 8 _, ?_⟩
    exact (Asm.digitsValue?_hexDigits 8 _).trans (congrArg some (Nat.mod_eq_of_lt w.isLt))

end Sys2Proof
end

section
/-! Masks and extraction (40_mask_extract.md): a ranged command reports InvalidRange exactly where the range check fails;
on a valid range BF.MASK and BF.EXT complete with the native word, zero-extended, whose bits and number are those of the
rules. -/

namespace Sys2Proof.Machine

open Sys2Proof.Safety

/-! ### InvalidRange (R53) -/

/-- CAUSE reads 2 after a completion with InvalidRange and after no other (R68). -/
theorem State.complete_cause_eq_two_iff (o : CommandOutcome) (s : State) :
    (s.complete o).cause = 2 ↔ o = .fault .invalidRange := by
  cases o with
  | ok r =>
    rw [State.complete_ok, okState_cause]
    exact iff_of_false (by decide) CommandOutcome.noConfusion
  | fault k =>
    obtain ⟨-, cause, -⟩ := faultState_fields s k
    rw [State.complete_fault, cause, CommandOutcome.fault.injEq]
    cases k <;> decide

/-- A command that takes a range ends in InvalidRange exactly where the check fails. -/
theorem outcome_eq_invalidRange_iff {f t : Nat} {a b : Word} {i : Instr} (hi : i ∈ rangedCommands f t a b) :
    outcome i = .fault .invalidRange ↔ ¬ rangeValid f t := by
  refine ⟨fun fails hr => ?_, outcome_of_mem_ranged hi⟩
  simp only [List.mem_cons, List.not_mem_nil, or_false] at hi
  obtain rfl | rfl | rfl | rfl := hi
  · cases (bfMaskOutcome_valid hr).symm.trans fails
  · cases (bfExtOutcome_valid a hr).symm.trans fails
  · have value := (bfExtsOutcome_valid_eq a hr).symm.trans fails
    by_cases he : f = t
    · rw [if_pos he] at value
      cases value
    · rw [if_neg he] at value
      cases value
  · cases (bfInsOutcome_valid a b hr).symm.trans fails

/-- Settles O27: CAUSE tells InvalidRange from every other outcome, and that outcome is the failed check. -/
theorem rangeCheckIsTheSourcesLooseCheck : Obligations.RangeCheckIsTheSourcesLooseCheck := by
  intro f t a b s i hi
  refine ⟨_, exec_eq i s, ?_, fun reported => ?_⟩
  · rw [State.complete_cause_eq_two_iff, outcome_eq_invalidRange_iff hi, and_iff_right f.zero_le]
  · rw [(State.complete_cause_eq_two_iff ..).mp reported, State.complete_fault]
    rfl

/-! ### BF.MASK and BF.EXT on a valid range (R54, R57, R58) -/

section
variable {f t : Nat} (a b : Word) (s : State)

theorem exec_bfMask_valid (hr : rangeValid f t) :
    exec (.bfMask f t a b) s = .next (okState s ((nativeMask f t).setWidth 64)) := by
  rw [exec_eq, outcome, bfMaskOutcome_valid hr, State.complete_ok, ← nativeMask_toNat, sext64_toNat]

theorem exec_bfExt_valid (hr : rangeValid f t) :
    exec (.bfExt f t a b) s = .next (okState s ((nativeExtract f t a).setWidth 64)) := by
  rw [exec_eq, outcome, bfExtOutcome_valid a hr, State.complete_ok, ← nativeExtract_toNat, sext64_toNat]

/-- The bits of the mask: the reduction modulo 2^32 cuts the field off at bit 31 (R57). -/
theorem nativeMask_getLsbD (hr : rangeValid f t) (i : Nat) :
    (nativeMask f t).getLsbD i = decide (f ≤ i ∧ i ≤ min t 31) := by
  obtain ⟨-, hft, -⟩ := hr
  rw [← BitVec.testBit_toNat, nativeMask_toNat, testBit_mask, ← Bool.decide_and, ← Bool.decide_and]
  exact decide_eq_decide.mpr (by omega)

end

/-- Settles O28: the native word has the closed form as its number. -/
theorem maskIsTheClosedForm : Obligations.MaskIsTheClosedForm := by
  intro f t a b s hr
  refine ⟨_, exec_bfMask_valid a b s hr, ?_, rfl, nativeMask_getLsbD hr⟩
  rw [BitVec.toNat_setWidth_of_le (by decide), nativeMask_toNat, mask_eq_maskValue]

/-- How many numbers below `n` lie in an interval. -/
theorem countP_range_interval (lo hi n : Nat) :
    (List.range n).countP (fun i => decide (lo ≤ i ∧ i ≤ hi)) = min n (hi + 1) - lo := by
  induction n with
  | zero => simp
  | succ n ih =>
    rw [List.range_succ, List.countP_append, ih, List.countP_singleton, if_congr decide_eq_true_iff rfl rfl]
    split_ifs <;> omega

/-- Settles O29: the bits are the interval from `from_bit` to `min(to_bit, 31)`, counted by `countP_range_interval`. -/
theorem maskBitsRunFromFromToTo : Obligations.MaskBitsRunFromFromToTo := by
  intro f t a b s hr
  have bit (i : Nat) : ((nativeMask f t).setWidth 64).getLsbD i = decide (f ≤ i ∧ i ≤ min t 31) := by
    rw [← BitVec.testBit_toNat, BitVec.toNat_setWidth_of_le (by decide), BitVec.testBit_toNat, nativeMask_getLsbD hr]
  refine ⟨_, exec_bfMask_valid a b s hr, fun i => by rw [bit, decide_eq_true_iff], ?_⟩
  simp only [bit, countP_range_interval]
  split_ifs <;> omega

/-- The bits of a slice. -/
theorem testBit_sliceValue (a : Word) (lo hi i : Nat) :
    (sliceValue a lo hi).testBit i = (decide (i ≤ hi - lo) && a.getLsbD (lo + i)) := by
  rw [sliceValue, Nat.testBit_mod_two_pow, Nat.testBit_div_two_pow, BitVec.testBit_toNat, Nat.add_comm i]
  simp only [Nat.lt_succ_iff]

/-- A slice is below 2 to any number of bits that holds it. -/
theorem sliceValue_le (a : Word) {lo hi w : Nat} (h : hi - lo + 1 ≤ w) : sliceValue a lo hi ≤ 2 ^ w - 1 :=
  Nat.le_sub_one_of_lt ((Nat.mod_lt _ (Nat.two_pow_pos _)).trans_le (Nat.pow_le_pow_right (by decide) h))

/-- Settles O30: the native word is the slice, whose bits and bounds are those of `sliceValue`. -/
theorem extractIsTheBitSlice : Obligations.ExtractIsTheBitSlice := by
  intro f t a b s hr
  have slice : ((nativeExtract f t a).setWidth 64).toNat = sliceValue a f (min t 31) := by
    rw [BitVec.toNat_setWidth_of_le (by decide), nativeExtract_toNat, extractField_eq_slice hr]
  refine ⟨_, exec_bfExt_valid a b s hr, slice, fun i => ?_, ?_, ?_⟩
  · rw [← BitVec.testBit_toNat, slice, testBit_sliceValue]
  · exact slice.trans_le (sliceValue_le a le_rfl)
  · exact slice.trans_le (sliceValue_le a (by omega))

/-! ### The commands whole (R55, R56) -/

section
variable {c : Issue}

theorem strayBits_of_ranged (h : opOf c.cmd ≠ 5) : strayBits c.cmd ↔ widthOf c.cmd ≠ 0 ∨ rsvOf c.cmd ≠ 0 := by
  simp only [strayBits]
  omega

/-- One step on BF.MASK, BF.EXT or BF.INS: stray bits, the range check, then the native result. -/
theorem step_ranged {s : State} {rest : List HostOp} (h : s.pending = .issue c :: rest)
    (hop : opOf c.cmd = 1 ∨ opOf c.cmd = 2 ∨ opOf c.cmd = 4) :
    step s = .next (
      if widthOf c.cmd ≠ 0 ∨ rsvOf c.cmd ≠ 0 then faultState { s with pending := rest } 1
      else if ¬ rangeValid (fromOf c.cmd) (toOf c.cmd) then faultState { s with pending := rest } 2
      else okState { s with pending := rest } (nativeResult c)) := by
  have stray := strayBits_of_ranged (c := c) (by omega)
  by_cases hs : strayBits c.cmd
  · rw [step_illegalWord h (.inr (.inr hs)), if_pos (stray.mp hs)]
  rw [step_issue_eq h, firstFault_ranged hop hs, if_neg (mt stray.mpr hs)]
  by_cases hr : rangeValid (fromOf c.cmd) (toOf c.cmd)
  · rw [if_pos hr, if_pos rfl, if_neg (not_not_intro hr)]
    rfl
  · rw [if_neg hr, if_neg (by decide), if_pos hr]
    rfl

theorem nativeResult_bfMask (h : opOf c.cmd = 1) :
    nativeResult c = BitVec.ofNat 64 (maskValue (fromOf c.cmd) (toOf c.cmd)) := by
  simp only [nativeResult, h]
  rw [← mask_eq_maskValue, ← nativeMask_toNat, BitVec.ofNat_toNat]

theorem nativeResult_bfExt (h : opOf c.cmd = 2) :
    nativeResult c =
      BitVec.ofNat 64 ((maskValue (fromOf c.cmd) (toOf c.cmd) &&& c.a.toNat) / 2 ^ fromOf c.cmd) := by
  simp only [nativeResult, h]
  rw [← mask_eq_maskValue, ← Nat.shiftRight_eq_div_pow, ← extractField, ← nativeExtract_toNat, BitVec.ofNat_toNat]

end

/-- Settles O31: `step_ranged`, the native mask as a number. -/
theorem bfMaskCommand : Obligations.BfMaskCommand := by
  intro c s rest h hop
  rw [step_ranged h (.inl hop), nativeResult_bfMask hop]

/-- Settles O32: `step_ranged`, the native extract as a number. -/
theorem bfExtCommand : Obligations.BfExtCommand := by
  intro c s rest h hop
  rw [step_ranged h (.inr (.inl hop)), nativeResult_bfExt hop]

end Sys2Proof.Machine
end

section
/-! Sign extension (41_sign_extend.md): SX by the sign bit, as the two's-complement reading and in its range; what SEXT
and BF.EXTS do for every value of their fields; the two commands whole, as the step of the command they decode to. -/

namespace Sys2Proof.Machine

open Sys2Proof.Safety

/-! ### SX by its sign bit (R59) -/

section
variable {n w : Nat} {v : BitVec n}

/-- Sign bit set: the bits below it less its weight; whatever stands above it is dropped. -/
theorem sxValue_of_sign_set (sign : v.getLsbD (w - 1) = true) :
    sxValue v.toNat w = (v.toNat % 2 ^ (w - 1) : Nat) - 2 ^ (w - 1) := by
  rw [← BitVec.testBit_toNat, Nat.testBit_eq_decide_div_mod_eq, decide_eq_true_iff] at sign
  exact if_pos sign

/-- Sign bit clear: the field itself. -/
theorem sxValue_of_sign_clear (sign : v.getLsbD (w - 1) = false) : sxValue v.toNat w = v.toNat := by
  rw [← BitVec.testBit_toNat, Nat.testBit_eq_decide_div_mod_eq, decide_eq_false_iff_not] at sign
  exact if_neg sign

end

/-- A field below the weight of the sign bit is passed on. -/
theorem sxValue_of_lt {field w : Nat} (h : field < 2 ^ (w - 1)) : sxValue field w = field := by
  rw [sxValue, Nat.div_eq_of_lt h]
  rfl

/-- SX of a field of exactly its width is the two's-complement reading (R64). -/
theorem sxValue_eq_toInt {k : Nat} (x : BitVec (k + 1)) : sxValue x.toNat (k + 1) = x.toInt := by
  rw [BitVec.toInt_eq_msb_cond, BitVec.msb_eq_getLsbD_last]
  cases sign : x.getLsbD (k + 1 - 1) with
  | false => exact sxValue_of_sign_clear sign
  | true =>
    have parts : x.toNat = x.toNat % 2 ^ k + 2 ^ k := by
      rw [← BitVec.testBit_toNat, Nat.testBit_eq_decide_div_mod_eq, decide_eq_true_iff, Nat.add_sub_cancel] at sign
      have split := Nat.mod_pow_succ (x := x.toNat) (b := 2) (k := k)
      rwa [Nat.mod_eq_of_lt x.isLt, sign, Nat.mul_one] at split
    rw [sxValue_of_sign_set sign, if_pos rfl, Nat.add_sub_cancel]
    generalize x.toNat % 2 ^ k = low at parts ⊢
    rw [parts, pow_succ]
    push_cast
    ring

/-- A field that fits its width has a result in the range of that width (R61). -/
theorem sxValue_range {field w : Nat} (hw : 1 ≤ w) (h : field < 2 ^ w) :
    -2 ^ (w - 1) ≤ sxValue field w ∧ sxValue field w ≤ 2 ^ (w - 1) - 1 := by
  obtain ⟨k, rfl⟩ := Nat.exists_eq_add_of_le' hw
  have reading := sxValue_eq_toInt (BitVec.ofNatLT field h)
  rw [BitVec.toNat_ofNatLT] at reading
  rw [reading]
  exact ⟨BitVec.le_toInt _, Int.le_sub_one_of_lt BitVec.toInt_lt⟩

/-- RESULT reads back as the value: SX of a word fits 64 bits (R61). -/
theorem toInt_sext64_sxValue (v : Word) (w : Nat) : (sext64 (sxValue v.toNat w)).toInt = sxValue v.toNat w := by
  obtain ⟨low, high⟩ := okInRange_sxValue v w
  exact BitVec.toInt_ofInt_eq_self (by decide) (by omega) (by omega)

/-! ### SEXT for every width and field (R59, R60, R61) -/

/-- SEXT (R62): the width check, the field check, SX. -/
theorem exec_sext_eq (w : Nat) (a b : Word) (s : State) :
    exec (.sext w a b) s = .next (
      if w ≤ 1 then faultState s 3
      else if 2 ^ (w + 1) ≤ a.toNat then faultState s 4
      else okState s (sext64 (sxValue a.toNat w))) := by
  rw [exec_eq, outcome, sextOutcome, signExtend_eq]
  split_ifs
  · exact congrArg _ (State.complete_fault .invalidWidth s)
  · exact congrArg _ (State.complete_fault .fieldOutOfRange s)
  · exact congrArg _ (State.complete_ok _ s)

theorem exec_sext_valid {w : Nat} {a : Word} (hw : 1 < w) (ha : a.toNat < 2 ^ (w + 1)) (b : Word) (s : State) :
    exec (.sext w a b) s = .next (okState s (sext64 (sxValue a.toNat w))) := by
  rw [exec_sext_eq, if_neg hw.not_ge, if_neg ha.not_ge]

/-- Settles O33: the two checks of `exec_sext_eq` in their order, then SX by its sign bit. -/
theorem signExtendFollowsTheAlgorithm : Obligations.SignExtendFollowsTheAlgorithm := by
  intro w a b s
  refine ⟨fun hw => exec_sext_invalidWidth hw a b s, fun hw ha => ?_, fun hw ha sign => ?_, fun hw ha sign => ?_⟩
  · rw [exec_sext_eq, if_neg hw.not_ge, if_pos ha]
  · rw [exec_sext_valid hw ha, sxValue_of_sign_set sign, sext64]
  · rw [exec_sext_valid hw ha, sxValue_of_sign_clear sign, sext64]

/-- Settles O34: RESULT reads back as SX's value, which is in range by `okInRange_sxValue`; a sign bit that is set is
one of the word's 32 bits. -/
theorem signExtendResultRange : Obligations.SignExtendResultRange := by
  intro w a b s hw _ ha
  refine ⟨_, exec_sext_valid hw ha b s, ?_⟩
  rw [toInt_sext64_sxValue]
  obtain ⟨low, high⟩ := okInRange_sxValue a w
  refine ⟨low, high, fun sign => ⟨?_, ?_, ?_⟩, sxValue_of_sign_clear, fun hw33 => ?_, fun _ hfit => ?_⟩
  · rw [sxValue_of_sign_set sign]
    omega
  · exact Nat.ge_two_pow_of_testBit sign
  · exact Nat.pow_le_pow_right (by decide) (Nat.le_of_lt_succ (BitVec.lt_of_getLsbD sign))
  · exact sxValue_of_lt (a.isLt.trans_le (Nat.pow_le_pow_right (by decide) (by omega)))
  · exact sxValue_range hw.le hfit

/-! ### BF.EXTS for every range and word (R63, R64) -/

section
variable {f t : Nat} (a b : Word) (s : State)

/-- BF.EXTS (R63): the range check, the width check, SX of the extracted field. -/
theorem exec_bfExts_eq :
    exec (.bfExts f t a b) s = .next (
      if ¬ rangeValid f t then faultState s 2
      else if f = t then faultState s 3
      else okState s (sext64 (sxValue (extractField f t a.toNat) (t - f + 1)))) := by
  by_cases hr : rangeValid f t
  · rw [exec_eq, outcome, bfExtsOutcome_valid_eq a hr, if_neg (not_not_intro hr)]
    split_ifs
    · exact congrArg _ (State.complete_fault .invalidWidth s)
    · exact congrArg _ (State.complete_ok _ s)
  · rw [exec_invalidRange (a := a) (b := b) (by simp) hr, if_pos hr]

theorem exec_bfExts_valid (hr : rangeValid f t) (hlt : f < t) :
    exec (.bfExts f t a b) s = .next (okState s (sext64 (sxValue (extractField f t a.toNat) (t - f + 1)))) := by
  rw [exec_bfExts_eq, if_neg (not_not_intro hr), if_neg hlt.ne]

/-- The extracted field by arithmetic (R54, R56). -/
theorem extractField_eq_div (f t w : Nat) : extractField f t w = (maskValue f t &&& w) / 2 ^ f := by
  rw [extractField, mask_eq_maskValue, Nat.shiftRight_eq_div_pow]

/-- Up to `to_bit = 31` the extracted field is the slice of the word. -/
theorem extractField_eq_extractLsb' (hft : f ≤ t) (ht : t ≤ 31) :
    extractField f t a.toNat = (a.extractLsb' f (t - f + 1)).toNat := by
  rw [extractField_eq_slice ⟨by omega, hft, by omega⟩, Nat.min_eq_left ht, sliceValue, BitVec.extractLsb'_toNat,
    Nat.shiftRight_eq_div_pow]

theorem toNat_div_lt (hf : f < 32) : a.toNat / 2 ^ f < 2 ^ (32 - f) := by
  refine Nat.div_lt_of_lt_mul ?_
  rw [← pow_add, Nat.add_sub_of_le hf.le]
  exact a.isLt

/-- At `to_bit = 32` the extracted field is all of the word from `from_bit` up. -/
theorem extractField_to_32 (hf : f < 32) : extractField f 32 a.toNat = a.toNat / 2 ^ f := by
  have width : min 32 31 - f + 1 = 32 - f := by omega
  rw [extractField_eq_slice ⟨hf, hf.le, le_rfl⟩, sliceValue, width, Nat.mod_eq_of_lt (toNat_div_lt a hf)]

end

/-- The codes of R68 tell the causes apart. -/
theorem Cause.code_inj (j k : Cause) : j.code = k.code ↔ j = k := by
  cases j <;> cases k <;> decide

/-- CAUSE after a completion is the code of a fault exactly where the outcome is that fault (R68). -/
theorem State.complete_cause_eq_code_iff (o : CommandOutcome) (k : Cause) (s : State) :
    (s.complete o).cause = k.code ↔ o = .fault k := by
  cases o with
  | ok r =>
    rw [State.complete_ok, okState_cause]
    exact iff_of_false (by cases k <;> decide) CommandOutcome.noConfusion
  | fault j =>
    obtain ⟨-, cause, -⟩ := faultState_fields s j
    rw [State.complete_fault, cause, CommandOutcome.fault.injEq, Cause.code_inj]

theorem bfExtsOutcome_ne_fieldOutOfRange (f t : Nat) (a : Word) : bfExtsOutcome f t a ≠ .fault .fieldOutOfRange := by
  by_cases hr : rangeValid f t
  · rw [bfExtsOutcome_valid_eq a hr]
    split_ifs <;> simp
  · simp [bfExtsOutcome_invalid a hr]

/-- Settles O35: the outcome is never FieldOutOfRange, and so neither is CAUSE; up to `to_bit = 31` SX has the width of
the slice, and at `to_bit = 32` it is one bit wider. -/
theorem signedExtractReadsTwosComplement : Obligations.SignedExtractReadsTwosComplement := by
  refine ⟨fun f t a b s => ⟨_, exec_eq _ s, fun cause => ?_⟩, fun f t a b s hlt ht => ?_, fun f a b s hf => ?_⟩
  · exact bfExtsOutcome_ne_fieldOutOfRange f t a ((State.complete_cause_eq_code_iff _ .fieldOutOfRange s).mp cause)
  · refine ⟨_, exec_bfExts_valid a b s ⟨by omega, hlt.le, by omega⟩ hlt, ?_⟩
    have reading : (sext64 (sxValue (extractField f t a.toNat) (t - f + 1))).toInt =
        (a.extractLsb' f (t - f + 1)).toInt := by
      rw [← nativeExtract_toNat, toInt_sext64_sxValue, nativeExtract_toNat, extractField_eq_extractLsb' a hlt.le ht,
        sxValue_eq_toInt]
    rw [reading]
    exact ⟨rfl, BitVec.le_toInt _, Int.le_sub_one_of_lt BitVec.toInt_lt⟩
  · rw [exec_bfExts_valid a b s ⟨hf, hf.le, le_rfl⟩ hf, extractField_to_32 a hf,
      sxValue_of_lt (w := 32 - f + 1) (toNat_div_lt a hf), sext64, BitVec.ofInt_natCast]

/-! ### The commands whole (R62, R63) -/

section
variable {c : Issue} {s : State} {rest : List HostOp}

/-- A step on a word that decodes is exec of its command (R34). -/
theorem step_of_decode {i : Instr} (h : s.pending = .issue c :: rest) (hd : decode c = .command i) :
    step s = exec i { s with pending := rest } := by
  rw [step_issue h, exec_eq, issueOutcome, hd]
  rfl

theorem strayBits_of_sext (h : opOf c.cmd = 5) :
    strayBits c.cmd ↔ fromOf c.cmd ≠ 0 ∨ toOf c.cmd ≠ 0 ∨ rsvOf c.cmd ≠ 0 := by
  simp only [strayBits]
  omega

end

/-- Settles O36: a word with stray bits is illegal, any other steps as `exec_bfExts_eq` says. -/
theorem bfExtsCommand : Obligations.BfExtsCommand := by
  intro c s rest h hop
  have stray := strayBits_of_ranged (c := c) (by omega)
  by_cases hs : strayBits c.cmd
  · rw [step_illegalWord h (.inr (.inr hs)), if_pos (stray.mp hs)]
  · rw [step_of_decode h (decode_bfExts hop hs), exec_bfExts_eq, if_neg (mt stray.mpr hs), extractField_eq_div, sext64]

/-- Settles O37: a word with stray bits is illegal, any other steps as `exec_sext_eq` says. -/
theorem sextCommand : Obligations.SextCommand := by
  intro c s rest h hop
  have stray := strayBits_of_sext hop
  by_cases hs : strayBits c.cmd
  · rw [step_illegalWord h (.inr (.inr hs)), if_pos (stray.mp hs)]
  · rw [step_of_decode h (decode_sext hop hs), exec_sext_eq, if_neg (mt stray.mpr hs), sext64]

end Sys2Proof.Machine
end

section
/-! Insertion (42_insert.md): on a valid range BF.INS completes with the native word, whose bits are A's and those bits
of B that land in the field; masking, truncation and the round trip with BF.EXT follow from them; the command whole. -/

namespace Sys2Proof.Machine

open Sys2Proof.Safety

/-! ### The inserted word (R65, R66) -/

section
variable {f t : Nat} (a b : Word) (s : State)

theorem exec_bfIns_valid (hr : rangeValid f t) :
    exec (.bfIns f t a b) s = .next (okState s ((nativeInsert f t a b).setWidth 64)) := by
  rw [exec_eq, outcome, bfInsOutcome_valid a b hr, State.complete_ok, ← nativeInsert_toNat, sext64_toNat]

/-- The bits of the inserted word: inside the field B's bit is ORed into A's (R66). -/
theorem nativeInsert_getLsbD (hr : rangeValid f t) (i : Nat) :
    (nativeInsert f t a b).getLsbD i =
      (a.getLsbD i || (decide (f ≤ i ∧ i ≤ min t 31) && b.getLsbD (i - f))) := by
  rw [nativeInsert, BitVec.getLsbD_or, BitVec.getLsbD_and, BitVec.getLsbD_shiftLeft, nativeMask_getLsbD hr]
  by_cases inField : f ≤ i ∧ i ≤ min t 31
  · have below : i < 32 := by omega
    simp [inField, below, inField.1.not_gt]
  · rw [decide_eq_false inField, Bool.and_false, Bool.false_and]

/-- Only the bits of B that have a place in the field matter (R66). -/
theorem nativeInsert_congr {b b' : Word} (hr : rangeValid f t)
    (agree : ∀ j : Nat, j < min t 31 - f + 1 → b.getLsbD j = b'.getLsbD j) :
    nativeInsert f t a b' = nativeInsert f t a b := by
  refine BitVec.eq_of_getLsbD_eq fun i _ => ?_
  rw [nativeInsert_getLsbD a b' hr, nativeInsert_getLsbD a b hr]
  by_cases inField : f ≤ i ∧ i ≤ min t 31
  · rw [agree (i - f) (by omega)]
  · rw [decide_eq_false inField, Bool.false_and, Bool.false_and]

end

/-- Settles O38: RESULT is the native word, which depends on B's bits inside the field alone. -/
theorem insertMergesWithoutChecking : Obligations.InsertMergesWithoutChecking := by
  intro f t a b s hr
  refine ⟨_, exec_bfIns_valid a b s hr, fun i => ?_, fun b' agree => ?_⟩
  · rw [← BitVec.testBit_toNat, BitVec.toNat_setWidth_of_le (by decide), BitVec.testBit_toNat,
      nativeInsert_getLsbD a b hr]
  · rw [exec_bfIns_valid a b' s hr, exec_bfIns_valid a b s hr, nativeInsert_congr a hr agree]

/-! ### Preservation, truncation, round trip (R67) -/

section
variable {f t : Nat} (a b : Word)

/-- Inside the mask the inserted word is A ORed with the shifted B. -/
theorem nativeInsert_and_mask :
    nativeInsert f t a b &&& nativeMask f t = (a &&& nativeMask f t) ||| ((b <<< f) &&& nativeMask f t) := by
  rw [nativeInsert, BitVec.and_or_distrib_right, BitVec.and_assoc, BitVec.and_self]

/-- Outside the mask A is preserved. -/
theorem nativeInsert_and_not_mask :
    nativeInsert f t a b &&& ~~~nativeMask f t = a &&& ~~~nativeMask f t := by
  rw [nativeInsert, BitVec.and_or_distrib_right, BitVec.and_assoc, BitVec.and_not_self, BitVec.ofNat_eq_ofNat,
    BitVec.and_zero, BitVec.or_zero]

/-- The mask shifted down to bit 0 has the bits of B that have a place in the field. -/
theorem nativeMask_shiftRight_getLsbD (hr : rangeValid f t) {j : Nat} (hj : j < min t 31 - f + 1) :
    (nativeMask f t >>> f).getLsbD j = true := by
  rw [BitVec.getLsbD_ushiftRight, nativeMask_getLsbD hr]
  exact decide_eq_true (by omega)

/-- The truncation law: "Idempotence under masking". -/
theorem nativeInsert_truncate (hr : rangeValid f t) :
    nativeInsert f t a (b &&& (nativeMask f t >>> f)) = nativeInsert f t a b :=
  nativeInsert_congr a hr fun j hj => by
    rw [BitVec.getLsbD_and, nativeMask_shiftRight_getLsbD hr hj, Bool.and_true]

/-- The round trip: a B that fits the field, inserted where A is zero, is extracted again. -/
theorem nativeExtract_nativeInsert {a b : Word} (hr : rangeValid f t) (fits : b.toNat < 2 ^ (min t 31 - f + 1))
    (clear : a &&& nativeMask f t = 0) : nativeExtract f t (nativeInsert f t a b) = b := by
  have field : nativeMask f t &&& nativeInsert f t a b = (b <<< f) &&& nativeMask f t := by
    rw [BitVec.and_comm, nativeInsert_and_mask, clear, BitVec.ofNat_eq_ofNat, BitVec.zero_or]
  refine BitVec.eq_of_getLsbD_eq fun i _ => ?_
  rw [nativeExtract, field, BitVec.getLsbD_ushiftRight, BitVec.getLsbD_and, BitVec.getLsbD_shiftLeft,
    nativeMask_getLsbD hr, Nat.add_sub_cancel_left]
  by_cases inWidth : i < min t 31 - f + 1
  · have inField : f ≤ f + i ∧ f + i ≤ min t 31 := by omega
    have below : f + i < 32 := by omega
    simp [inField, below]
  · have high : b.getLsbD i = false :=
      Nat.testBit_lt_two_pow (fits.trans_le (Nat.pow_le_pow_right (by decide) (not_lt.mp inWidth)))
    rw [high, Bool.and_false, Bool.false_and]

end

/-- Settles O39: the laws of the native word, carried over to the unit by `exec_bfIns_valid` and `exec_bfExt_valid`;
both round trips are the one for a field of `min(to_bit, 31) - from_bit + 1` bits. -/
theorem insertLaws : Obligations.InsertLaws := by
  rintro f t a b b' s s' m hr rfl
  have roundTrip (fits : b.toNat < 2 ^ (min t 31 - f + 1)) (clear : a &&& nativeMask f t = 0) :
      exec (.bfExt f t (nativeInsert f t a b) b') s' = .next (okState s' (b.setWidth 64)) := by
    rw [exec_bfExt_valid _ b' s' hr, nativeExtract_nativeInsert hr fits clear]
  refine ⟨_, exec_bfIns_valid a b s hr, nativeInsert_and_not_mask a b, nativeInsert_and_mask a b, ?_,
    fun ht fits => roundTrip ?_, fun ht fits => roundTrip ?_⟩
  · rw [exec_bfIns_valid _ _ s hr, exec_bfIns_valid _ _ s hr, nativeInsert_truncate a b hr]
  · rwa [Nat.min_eq_left ht]
  · have width : min t 31 - f + 1 = 32 - f := by omega
    rwa [width]

/-! ### The command whole (R65) -/

/-- The inserted word by arithmetic (R54, R65). -/
theorem insertField_eq (f t a b : Nat) :
    insertField f t a b = a ||| (b * 2 ^ f % 2 ^ 32 &&& maskValue f t) := by
  rw [insertField, mod32, Nat.shiftLeft_eq, mask_eq_maskValue]

/-- The mask has no bits from 32 on, so reducing the other operand `mod 2^32` changes nothing. -/
theorem mod_and_maskValue (f t n : Nat) : n % 2 ^ 32 &&& maskValue f t = n &&& maskValue f t := by
  have small : maskValue f t < 2 ^ 32 := mask_eq_maskValue f t ▸ mask_lt f t
  calc n % 2 ^ 32 &&& maskValue f t
      = n % 2 ^ 32 &&& maskValue f t % 2 ^ 32 := by rw [Nat.mod_eq_of_lt small]
    _ = (n &&& maskValue f t) % 2 ^ 32 := Nat.and_mod_two_pow.symm
    _ = n &&& maskValue f t := Nat.mod_eq_of_lt (Nat.and_lt_two_pow n small)

theorem nativeInsert_setWidth (f t : Nat) (a b : Word) :
    (nativeInsert f t a b).setWidth 64 =
      BitVec.ofNat 64 (a.toNat ||| (b.toNat * 2 ^ f % 2 ^ 32 &&& maskValue f t)) := by
  rw [← insertField_eq, ← nativeInsert_toNat, BitVec.ofNat_toNat]

theorem nativeResult_bfIns {c : Issue} (h : opOf c.cmd = 4) :
    nativeResult c = (nativeInsert (fromOf c.cmd) (toOf c.cmd) c.a c.b).setWidth 64 := by
  simp only [nativeResult, h]

/-- Settles O40: `step_ranged`, the native word as a number; the mask drops what the reduction would. -/
theorem bfInsCommand : Obligations.BfInsCommand := by
  refine ⟨fun c s rest h hop => ?_, fun f t a b s hr => ?_⟩
  · rw [step_ranged h (.inr (.inr hop)), nativeResult_bfIns hop, nativeInsert_setWidth]
  · rw [exec_bfIns_valid a b s hr, nativeInsert_setWidth, mod_and_maskValue]

end Sys2Proof.Machine
end

section
/-! Faults (60_exceptions.md): STATUS after an issued command reads its first fault, the faulting update is the one of
R24 bit for bit, the permissive operands complete, and a completion after a fault is the completion without it but for
STICKY. -/

namespace Sys2Proof.Machine

open Sys2Proof.Safety

/-! ### The first fault in STATUS (R68, R69, R70) -/

theorem faults_eq_true_iff (c : Issue) : faults c = true ↔ firstFault c ≠ 0 := by
  rw [faults, decide_eq_true_iff]

/-- The only codes a first fault can have are those of the four causes (R68). -/
theorem exists_cause_of_firstFault {c : Issue} (h : firstFault c ≠ 0) : ∃ k : Cause, firstFault c = k.code.toNat := by
  obtain ⟨r, -, noFault, -⟩ | ⟨k, -, code⟩ := issueOutcome_cases c
  · exact absurd noFault h
  · exact ⟨k, code⟩

/-- CAUSE after an issued command: the code of its first fault, 0 for none (R22, R68). -/
theorem complete_issueOutcome_cause (c : Issue) (s : State) :
    (s.complete (issueOutcome c)).cause.toNat = firstFault c := by
  obtain ⟨r, ho, noFault, -⟩ | ⟨k, ho, code⟩ := issueOutcome_cases c
  · rw [ho, State.complete_ok, okState_cause, noFault]
    rfl
  · obtain ⟨-, cause, -⟩ := faultState_fields s k
    rw [ho, State.complete_fault, cause, code]

/-- Settles O41: FLT and CAUSE after the completion of the command are its first fault. -/
theorem firstFaultInOrderIsReported : Obligations.FirstFaultInOrderIsReported := by
  intro c s rest h
  refine ⟨_, step_issue h, complete_issueOutcome_cause c _, ?_⟩
  rw [complete_issueOutcome_flt, faults_eq_true_iff]

/-- STICKY, CAUSE and FLT stand at bits that do not overlap (R20). -/
theorem statusFault_code (k : Cause) :
    statusFault k.code.toNat = BitVec.ofNat 32 (0x10 ||| (k.code.toNat <<< 1) ||| 1) := by
  cases k <;> decide

/-- Settles O42: the step is the faulting update, whose STATUS is `statusFault_code`. -/
theorem faultLeavesNoPartialResult : Obligations.FaultLeavesNoPartialResult := by
  intro c s rest h faulted
  obtain ⟨k, code⟩ := exists_cause_of_firstFault faulted
  rw [step_issue_eq h, if_neg faulted, faultState, code, statusFault_code]
  rfl

/-! ### What is not a fault (R72) -/

/-- A command that ends in the update without fault leaves FLT and CAUSE 0. -/
theorem no_fault_of_exec_eq_okState {i : Instr} {s : State} {r : ResultWord} (h : exec i s = .next (okState s r)) :
    ∃ u : State, exec i s = .next u ∧ u.flt = false ∧ u.cause = 0 :=
  ⟨_, h, okState_flt s r, okState_cause s r⟩

/-- Settles O43: each of the four commands with a range has its rule for a valid range, for every A and B; SEXT's rule
does not mention B. -/
theorem permissiveOperandsDoNotFault : Obligations.PermissiveOperandsDoNotFault := by
  intro f t a b s
  refine ⟨fun hr i hi => ?_, fun hr hlt => no_fault_of_exec_eq_okState (exec_bfExts_valid a b s hr hlt), fun w b' => ?_⟩
  · simp only [List.mem_cons, List.not_mem_nil, or_false] at hi
    obtain rfl | rfl | rfl := hi
    · exact no_fault_of_exec_eq_okState (exec_bfMask_valid a b s hr)
    · exact no_fault_of_exec_eq_okState (exec_bfExt_valid a b s hr)
    · exact no_fault_of_exec_eq_okState (exec_bfIns_valid a b s hr)
  · rw [exec_sext_eq, exec_sext_eq]

/-! ### The command after a fault (R74) -/

/-- Two commands in a row: each completes with its own outcome, the second from what the first left. -/
theorem core_run_two_issues {c d : Issue} {s : State} {rest : List HostOp}
    (h : s.pending = .issue c :: .issue d :: rest) :
    core.run 2 s = .next
      ((((s.withPending (.issue d :: rest)).complete (issueOutcome c)).withPending rest).complete (issueOutcome d)) := by
  rw [core_run_cons h, core_run_cons (State.complete_pending _ _)]
  rfl

/-- Settles O44: both runs end with the completion of the second command, which reads nothing of the old registers but
STICKY, and that the fault has set. -/
theorem faultDoesNotStopTheUnit : Obligations.FaultDoesNotStopTheUnit := by
  intro bad c s rest h faulted
  have wasSet (u : State) : (u.complete (issueOutcome bad)).sticky = true := by
    rw [complete_issueOutcome_sticky, (faults_eq_true_iff bad).mpr faulted, Bool.or_true]
  refine ⟨_, _, core_run_two_issues h, step_issue (rest := rest) rfl, State.complete_result_eq ..,
    State.complete_flt_eq .., State.complete_cause_eq .., ?_, State.complete_pending .., fun noFault => ⟨?_, ?_⟩⟩
  · rw [complete_issueOutcome_sticky, State.withPending_sticky, wasSet, Bool.true_or]
  · rw [complete_issueOutcome_flt, faults, noFault]
    rfl
  · rw [← BitVec.toNat_inj, complete_issueOutcome_cause, noFault]
    rfl

end Sys2Proof.Machine
end

section
/-! Completion (70_reset_and_hazards.md R96): no command and no step ends in a fault or a refusal of the machine, a
command's own fault being a next state (R24). -/

namespace Sys2Proof.Machine

/-- Every step completes: an idle unit stays as it is (R86), and otherwise the operation at the front is performed whole
(R34). -/
theorem exists_step_eq_next (s : State) : ∃ t : State, step s = .next t := by
  cases pending : s.pending with
  | nil => exact ⟨s, step_nil pending⟩
  | cons op rest => exact ⟨afterHostOp op (s.withPending rest), step_cons_eq pending⟩

/-- Settles O11: a command ends in a completion with its own outcome (`exec_eq`), a step by `exists_step_eq_next`. -/
theorem everyStepCompletes : Obligations.EveryStepCompletes :=
  ⟨fun i s => ⟨s.complete (outcome i), exec_eq i s⟩, exists_step_eq_next⟩

end Sys2Proof.Machine
end

section
/-! The register invariant (10_state.md R19 to R23): both updates of R24 and a reset leave the registers legal whatever
they held, a read keeps them, and a loss of power is followed by its reset (R86). -/

namespace Sys2Proof.Machine

open Sys2Proof.Safety

/-! ### Each update leaves legal registers -/

/-- RESULT reads back as the integer it was written from (R8, R19). -/
theorem toInt_sext64_of_okInRange {r : Int} (h : OkInRange (.ok r)) : (sext64 r).toInt = r := by
  obtain ⟨low, high⟩ := h
  exact BitVec.toInt_ofInt_eq_self (by decide) (by omega) (by omega)

theorem regsLegal_okState {r : Int} (h : OkInRange (.ok r)) (s : State) : RegsLegal (okState s (sext64 r)) := by
  have value := toInt_sext64_of_okInRange h
  have noFault : (okState s (sext64 r)).flt ≠ true := by rw [okState_flt]; decide
  obtain ⟨low, high⟩ := h
  exact {
    reserved_zero := okState_reserved s _
    cause_le_four := by rw [okState_cause]; decide
    flt_iff_cause := iff_of_false noFault (not_not_intro (okState_cause s _))
    flt_sticky := fun flt => absurd flt noFault
    flt_result := fun flt => absurd flt noFault
    result_low := value.symm ▸ low
    result_high := value.symm ▸ high }

theorem regsLegal_faultState (k : Cause) (s : State) : RegsLegal (faultState s k.code.toNat) := by
  obtain ⟨flt, cause, sticky, reserved⟩ := faultState_fields s k
  have code_ne_zero : k.code ≠ 0 := by cases k <;> decide
  exact {
    reserved_zero := reserved
    cause_le_four := by rw [cause]; exact k.code_le
    flt_iff_cause := iff_of_true flt (by rwa [cause])
    flt_sticky := fun _ => sticky
    flt_result := fun _ => rfl
    result_low := by rw [faultState_result]; decide
    result_high := by rw [faultState_result]; decide }

/-- A completion leaves legal registers, whatever they held before (R24). -/
theorem regsLegal_complete {o : CommandOutcome} (h : OkInRange o) (s : State) : RegsLegal (s.complete o) := by
  cases o with
  | ok r => rw [State.complete_ok]; exact regsLegal_okState h s
  | fault k => rw [State.complete_fault]; exact regsLegal_faultState k s

/-- The registers after a reset are those of a command with RESULT 0 and no fault since. -/
theorem State.applyReset_eq_okState (s : State) : s.applyReset = okState s.applyReset (sext64 0) := by
  rw [okState, State.applyReset_sticky]
  rfl

theorem regsLegal_applyReset (s : State) : RegsLegal s.applyReset := by
  rw [State.applyReset_eq_okState]
  exact regsLegal_okState (okInRange_natCast (n := 0) (by decide)) _

/-- The invariant speaks of the two registers alone. -/
theorem regsLegal_congr {s t : State} (result : t.result = s.result) (status : t.status = s.status)
    (h : RegsLegal s) : RegsLegal t := by
  cases s
  cases t
  cases result
  cases status
  obtain ⟨reserved, cause, iff, sticky, zero, low, high⟩ := h
  exact ⟨reserved, cause, iff, sticky, zero, low, high⟩

theorem regsLegal_deliver {s : State} (h : RegsLegal s) (v : Delivered) : RegsLegal (s.deliver v) :=
  regsLegal_congr (s.deliver_result v) (s.deliver_status v) h

theorem regsLegal_withPending {s : State} (h : RegsLegal s) (ops : List HostOp) : RegsLegal (s.withPending ops) :=
  regsLegal_congr (s.withPending_result ops) (s.withPending_status ops) h

/-! ### One operation -/

/-- Only a read needs legal registers to leave them legal; a loss of power leaves its reset pending. -/
theorem inv_afterHostOp {op : HostOp} {s : State} (h : RegsLegal s ∨ op = .reset) : Inv (afterHostOp op s) := by
  cases op with
  | issue c => exact .inl (regsLegal_complete (okInRange_issueOutcome c) s)
  | readResult => exact .inl (regsLegal_deliver (h.resolve_right HostOp.noConfusion) _)
  | readStatus => exact .inl (regsLegal_deliver (h.resolve_right HostOp.noConfusion) _)
  | reset => exact .inl (regsLegal_applyReset s)
  | issueWithReset c first =>
    cases first with
    | resetFirst => exact .inl (regsLegal_complete (okInRange_issueOutcome c) _)
    | commandFirst => exact .inl (regsLegal_applyReset _)
  | powerLoss r st => exact .inr rfl

/-- Settles O3: an idle unit keeps its state, and the operation at the front meets `inv_afterHostOp`. -/
theorem everyStepKeepsTheRegistersLegal : Obligations.EveryStepKeepsTheRegistersLegal := by
  intro s inv
  cases hp : s.pending with
  | nil => exact ⟨s, step_nil hp, inv⟩
  | cons op rest =>
    refine ⟨_, step_cons_eq hp, inv_afterHostOp ?_⟩
    obtain legal | front := inv
    · exact .inl (regsLegal_withPending legal rest)
    · rw [hp] at front
      exact .inr (Option.some.inj front)

/-- Settles O2: the start state is what a reset leaves. -/
theorem resetStateIsLegal : Obligations.ResetStateIsLegal := by
  have legal : RegsLegal State.reset := regsLegal_applyReset State.reset
  exact ⟨legal, .inl legal⟩

/-! ### The frame of a command (R14, R18, R24) -/

/-- Settles O14: exec is a completion, which writes the two registers and clears the reserved bits of STATUS. -/
theorem execWritesOnlyResultAndStatus : Obligations.ExecWritesOnlyResultAndStatus := by
  intro i s t h
  rw [exec_eq] at h
  cases h
  exact ⟨State.complete_pending .., State.complete_delivered .., State.complete_reserved ..⟩

end Sys2Proof.Machine
end

section
/-! Runs (20_memory.md R34, 60_exceptions.md R84 and R86, 70_reset_and_hazards.md R88): an idle unit, the history that
STICKY records, transactions, an ISSUE coinciding with a reset, a loss of power. -/

namespace Sys2Proof.Machine

open Sys2Proof.Safety

/-! ### An idle unit (R86) -/

theorem core_run_idle {s : State} (h : s.pending = []) (k : Nat) : core.run k s = .next s := by
  induction k with
  | zero => rfl
  | succ k ih =>
    have idle : core.step s = .next s := step_nil h
    simp only [Host.Core.run, idle, ih]

/-- Settles O10, by `core_run_idle`. -/
theorem idleUnitHoldsItsState : Obligations.IdleUnitHoldsItsState := fun k _ h => core_run_idle h k

/-! ### STICKY over a run (R20, R23) -/

/-- A history is read one operation at a time. -/
theorem stickyAfter_cons (b : Bool) (op : HostOp) (ops : List HostOp) :
    stickyAfter b (op :: ops) = stickyAfter (stickyAfter b [op]) ops := by
  cases op with
  | issueWithReset c first => cases first <;> rfl
  | _ => rfl

@[simp] theorem performed_nil (k : Nat) : performed k [] = [] := by cases k <;> rfl

/-- The history of a run begins with the operation at the front and goes on from what that leaves pending. -/
theorem performed_succ_cons (k : Nat) (op : HostOp) (s : State) :
    performed (k + 1) (op :: s.pending) = op :: performed k (afterHostOp op s).pending := by
  cases op with
  | issue c => rw [afterHostOp, State.complete_pending]; rfl
  | issueWithReset c first =>
    cases first with
    | resetFirst => rw [afterHostOp, State.complete_pending]; rfl
    | commandFirst => rw [afterHostOp, State.applyReset_pending, State.complete_pending]; rfl
  | _ => rfl

/-- Settles O7, by induction on the number of steps: `afterHostOp_sticky` for the first, the history cut there. -/
theorem stickyRecordsTheFaultHistory : Obligations.StickyRecordsTheFaultHistory := by
  intro k
  induction k with
  | zero => exact fun s => ⟨s, rfl, rfl⟩
  | succ k ih =>
    intro s
    cases hp : s.pending with
    | nil => exact ⟨s, core_run_idle hp _, by rw [performed_nil]; rfl⟩
    | cons op rest =>
      obtain ⟨t, run, sticky⟩ := ih (afterHostOp op (s.withPending rest))
      refine ⟨t, (core_run_cons hp k).trans run, ?_⟩
      have history := performed_succ_cons k op (s.withPending rest)
      rw [State.withPending_pending] at history
      rw [sticky, history, stickyAfter_cons, afterHostOp_sticky, State.withPending_sticky]

/-! ### Transactions (R16, R84, R94) -/

theorem hardwireStatus_statusOk (k : Bool) : hardwireStatus (statusOk k) = statusOk k := by
  cases k <;> decide

theorem hardwireStatus_statusFault (k : Cause) :
    hardwireStatus (statusFault k.code.toNat) = statusFault k.code.toNat := by
  cases k <;> decide

section
variable (c : Issue) (s : State)

theorem complete_issueOutcome_result : (s.complete (issueOutcome c)).result = resultOf c := by
  rw [complete_issueOutcome, resultOf]
  split_ifs <;> rfl

/-- STATUS as the host reads it after an issued command. -/
theorem complete_issueOutcome_readStatus : (s.complete (issueOutcome c)).readStatus = statusOf s.sticky c := by
  rw [complete_issueOutcome, statusOf]
  by_cases noFault : firstFault c = 0
  · rw [if_pos noFault, if_pos noFault]
    exact hardwireStatus_statusOk s.sticky
  · obtain ⟨k, code⟩ := exists_cause_of_firstFault noFault
    rw [if_neg noFault, if_neg noFault, code]
    exact hardwireStatus_statusFault k

/-- What a transaction leaves: the command completed, then both registers read. -/
def State.afterTransaction (rest : List HostOp) : State := (s.complete (issueOutcome c)).afterReadingBoth rest

variable (rest : List HostOp)

theorem State.afterTransaction_pending : (s.afterTransaction c rest).pending = rest := rfl

theorem State.afterTransaction_sticky : (s.afterTransaction c rest).sticky = (s.sticky || faults c) :=
  complete_issueOutcome_sticky c s

theorem State.afterTransaction_delivered :
    (s.afterTransaction c rest).delivered =
      .status (statusOf s.sticky c) :: .result (resultOf c) :: s.delivered := by
  rw [afterTransaction, afterReadingBoth_delivered, complete_issueOutcome_readStatus, readResult,
    complete_issueOutcome_result, complete_delivered]

end

theorem core_run_transaction {c : Issue} {s : State} {rest : List HostOp} (h : s.pending = transaction c ++ rest)
    (k : Nat) : core.run (k + 3) s =
      core.run k ((s.withPending (.readResult :: .readStatus :: rest)).afterTransaction c rest) :=
  (core_run_cons h (k + 2)).trans (core_run_readBoth (State.complete_pending _ _) k)

/-- Settles O15, by induction on the transactions: the first returns its own result and STATUS, and the rest see of it
no more than STICKY. -/
theorem transactionsReturnTheirOwnResults : Obligations.TransactionsReturnTheirOwnResults := by
  intro cs
  induction cs with
  | nil => exact fun s rest h => ⟨s, rfl, h, rfl⟩
  | cons c cs ih =>
    intro s rest h
    rw [List.flatMap_cons, List.append_assoc] at h
    obtain ⟨t, run, pending, delivered⟩ := ih _ rest (State.afterTransaction_pending c _ _)
    refine ⟨t, (core_run_transaction h _).trans run, pending, ?_⟩
    rw [delivered, State.afterTransaction_sticky, State.afterTransaction_delivered, State.withPending_sticky,
      State.withPending_delivered]
    simp [expectedReads]

/-! ### An ISSUE coinciding with a reset (R88), a loss of power (R86) -/

/-- Two operations, the first of which leaves the second at the front. -/
theorem core_run_two {op op' : HostOp} {s : State} {ops rest : List HostOp} (h : s.pending = op :: ops)
    (front : (afterHostOp op (s.withPending ops)).pending = op' :: rest) :
    core.run 2 s = .next (afterHostOp op' ((afterHostOp op (s.withPending ops)).withPending rest)) := by
  rw [core_run_cons h, core_run_cons front]
  rfl

/-- A completion and the list of what is pending do not meet. -/
theorem State.complete_withPending (s : State) (o : CommandOutcome) (ops : List HostOp) :
    (s.withPending ops).complete o = (s.complete o).withPending ops := by
  cases o <;> rfl

/-- Settles O8: each order is its two operations in a row. -/
theorem coincidenceIsSequential : Obligations.CoincidenceIsSequential := by
  refine fun c s rest => ⟨fun h => ?_, fun h => ?_⟩
  · exact (step_cons_eq h).trans
      (core_run_two (s := s.withPending (.reset :: .issue c :: rest)) rfl (State.applyReset_pending _)).symm
  · have inOrder := core_run_two (s := s.withPending (.issue c :: .reset :: rest)) rfl (State.complete_pending _ _)
    refine (step_cons_eq h).trans (Eq.trans ?_ inOrder.symm)
    simp only [afterHostOp, State.complete_withPending]
    rfl

/-- Settles O9: what `losePower` leaves, and the reset at its front. -/
theorem powerLossIsFollowedByReset : Obligations.PowerLossIsFollowedByReset := by
  refine fun r st s rest h => ⟨⟨_, step_cons_eq h, ?_⟩, core_run_two h (State.losePower_pending _ _ _)⟩
  exact ⟨State.losePower_result .., State.losePower_status .., State.losePower_pending ..,
    State.losePower_delivered ..⟩

end Sys2Proof.Machine
end

section
/-! Decoding and the decoded command (30_encoding.md R41, R42, R48; 20_memory.md R34). -/

namespace Sys2Proof

open Sys2Proof.Machine Sys2Proof.Safety

/-- Settles O17, by `decode_encode`. -/
theorem decodeOfEncodeIsTheCommand : Obligations.DecodeOfEncodeIsTheCommand := fun _ hwf => decode_encode hwf

/-- Settles O18: the word is legal, and each OP has one answer of `decode`. -/
theorem decodedFieldsAreTheWordsFields : Obligations.DecodedFieldsAreTheWordsFields := by
  intro c i hd
  have unique {j : Instr} (hj : decode c = .command j) : i = j := Decoded.command.inj (hd.symm.trans hj)
  obtain hill | ⟨hs, h | h | h | h | h⟩ := illegal_or_command c.cmd
  · exact absurd hill (spells_of_decode hd).legal
  · exact .inl ⟨unique (decode_bfMask h hs), h⟩
  · exact .inr (.inl ⟨unique (decode_bfExt h hs), h⟩)
  · exact .inr (.inr (.inl ⟨unique (decode_bfExts h hs), h⟩))
  · exact .inr (.inr (.inr (.inl ⟨unique (decode_bfIns h hs), h⟩)))
  · exact .inr (.inr (.inr (.inr ⟨unique (decode_sext h hs), h⟩)))

/-- Settles O13: `step_of_decode`, and a word that does not decode is illegal. -/
theorem stepRunsTheDecodedCommand : Obligations.StepRunsTheDecodedCommand :=
  fun _ _ _ h => ⟨fun _ hd => step_of_decode h hd, fun why hd => step_illegalWord h (decode_illegal_iff.mp ⟨why, hd⟩)⟩

/-- Settles O16: each word is the one `encode` gives for its command, and `decode_encode` reads it back. -/
theorem wordsOfTheSpecDecode : Obligations.WordsOfTheSpecDecode := fun a b =>
  ⟨decode_encode (i := .bfMask 3 5 a b) rfl, decode_encode (i := .bfExt 0 3 a b) rfl,
    decode_encode (i := .bfExts 0 7 a b) rfl, decode_encode (i := .bfIns 3 5 a b) rfl,
    decode_encode (i := .sext 3 a b) rfl⟩

end Sys2Proof
end
